-- ==== Sys2Proof/Word.lean ====
section
/-! DEFINITION. The block's fixed widths (00_scope.md section 6: a byte is 8 bits, a word is 16 bits; R50, R52: request and response words are 32 bits). -/

namespace Sys2Proof

/-- A byte, 8 bits. -/
abbrev Byte := BitVec 8

/-- A word, 16 bits: a raw word, a command code, an index, a fill count. -/
abbrev Word := BitVec 16

/-- A request word `REQ` (R50). -/
abbrev ReqWord := BitVec 32

/-- A response word `RSP` (R52). -/
abbrev RspWord := BitVec 32

end Sys2Proof
end

