-- ==== Sys2Proof/Config.lean ====
section
/-! DEFINITION. What an implementation or a host fixes and the spec leaves open (92_eei_decisions.md, open parameters): the capacity NW and the host's CMDCRC_OF_FAMILY. -/

namespace Sys2Proof.Config

/-- R7: the number NW of wire-word slots, carried with its range. A value outside it cannot be written (U17: refused). -/
abbrev Capacity := { n : Nat // 1 ≤ n ∧ n ≤ 21845 }

/-- The capacity `State.reset` has. DESIGN CHOICE, unsafe (log 1): the spec leaves NW open; 95_test_vectors.md
part 3 runs its programs with NW = 4. No statement rests on the number. -/
def resetCapacity : Capacity := ⟨4, by decide⟩

/-- The two sensor families of 45_host_protocol.md R134; which sensor is which is not in the source (N17). -/
inductive Family where
  | older
  | newer
deriving DecidableEq, Repr

/-- D11, R134: the `CFG.CMDCRC` value each family needs. OPEN in the spec, so nothing is known of it (log 14);
it reaches the block only as the operand of a `CFGW` that the requester presents. -/
opaque cmdCrcOfFamily : Family → BitVec 1

end Sys2Proof.Config
end

