-- ==== Sys2Proof/Syntax.lean ====
section
/-! DEFINITION. The 17 requests of spec/opcode_table.json (30_encoding.md R53), one constructor a row, with the operands their format carries (R51, R59). -/

namespace Sys2Proof

/-- R53. `a` operands are 16-bit words used as they stand, `b` operands 8-bit bytes (R59).
`CFGW` carries the whole byte `b`; that its bits 7:1 are zero is checked in WellFormed (format C). -/
inductive Instr where
  /-- `CRC8 word` (R76) -/
  | crc8 (word : Word)
  /-- `CRC8V word, crc` (R77) -/
  | crc8v (word : Word) (crc : Byte)
  /-- `WCLR` (R100) -/
  | wclr
  /-- `WPUSH word` (R101) -/
  | wpush (word : Word)
  /-- `WGET index` (R102) -/
  | wget (index : Word)
  /-- `WLEN` (R103) -/
  | wlen
  /-- `BCLR` (R104) -/
  | bclr
  /-- `BPUSH byte` (R105) -/
  | bpush (byte : Byte)
  /-- `BGET index` (R106) -/
  | bget (index : Word)
  /-- `BLEN` (R107) -/
  | blen
  /-- `ENC` (R83) -/
  | enc
  /-- `FRAME cmd` (R84) -/
  | frame (cmd : Word)
  /-- `DEC` (R93) -/
  | dec
  /-- `STAT` (R110) -/
  | stat
  /-- `ECLR` (R111) -/
  | eclr
  /-- `CFGR` (R112) -/
  | cfgr
  /-- `CFGW bit` (R113) -/
  | cfgw (b : Byte)
deriving DecidableEq, Repr

end Sys2Proof
end

