-- ==== Sys2Proof/WellFormed.lean ====
section
/-! DEFINITION. Which instruction terms are requests. The operand types leave one check to make: format C (R51) allows bit 0 of `b` only. -/

namespace Sys2Proof

/-- R51, format C: bits 7:1 of `b` must be 0. -/
def reservedBitsClear (b : Byte) : Bool := b &&& 0xFE#8 == 0#8

/-- The terms that stand for a request word of R53. -/
def Instr.wellFormed : Instr → Bool
  | .crc8 _ => true
  | .crc8v _ _ => true
  | .wclr => true
  | .wpush _ => true
  | .wget _ => true
  | .wlen => true
  | .bclr => true
  | .bpush _ => true
  | .bget _ => true
  | .blen => true
  | .enc => true
  | .frame _ => true
  | .dec => true
  | .stat => true
  | .eclr => true
  | .cfgr => true
  | .cfgw b => reservedBitsClear b

end Sys2Proof
end

