-- ==== Sys2Proof/Decode.lean ====
section
/-! DEFINITION. Request words to instructions and back (30_encoding.md R50, R51, R53, R54, R55). Decoding is total on the 2^32 words and rejects by name. -/

namespace Sys2Proof

/-! ## Fields (R50) -/

/-- `REQ[31:24]` -/
def opField (w : ReqWord) : Byte := w.extractLsb' 24 8

/-- `REQ[23:8]` -/
def aField (w : ReqWord) : Word := w.extractLsb' 8 16

/-- `REQ[7:0]` -/
def bField (w : ReqWord) : Byte := w.extractLsb' 0 8

/-- `REQ = (op << 24) | (a << 8) | b` (R61): the three fields side by side. -/
def packRequest (op : Byte) (a : Word) (b : Byte) : ReqWord :=
  op.setWidth 32 <<< 24 ||| a.setWidth 32 <<< 8 ||| b.setWidth 32

/-! ## Formats and the opcode map (R51, R53) -/

/-- The five operand formats of R51. -/
inductive Format where
  | N
  | A
  | B
  | AB
  | C
deriving DecidableEq, Repr

/-- R51: the bits of the word that must equal the row's `match`. -/
def Format.mask : Format → ReqWord
  | .N => 0xFFFFFFFF#32
  | .A => 0xFF0000FF#32
  | .B => 0xFFFFFF00#32
  | .AB => 0xFF000000#32
  | .C => 0xFFFFFFFE#32

/-- R51, column `uses a`. -/
def Format.usesA : Format → Bool
  | .N => false
  | .A => true
  | .B => false
  | .AB => true
  | .C => false

/-- The 17 rows of R53, without their operands. -/
inductive Opcode where
  | crc8
  | crc8v
  | wclr
  | wpush
  | wget
  | wlen
  | bclr
  | bpush
  | bget
  | blen
  | enc
  | frame
  | dec
  | stat
  | eclr
  | cfgr
  | cfgw
deriving DecidableEq, Repr

/-- The rows in the order of R53. -/
def Opcode.all : List Opcode :=
  [.crc8, .crc8v] ++ [.wclr, .wpush, .wget, .wlen] ++ [.bclr, .bpush, .bget, .blen] ++
    [.enc, .frame, .dec] ++ [.stat, .eclr, .cfgr, .cfgw]

/-- R53, column `op`. -/
def Opcode.number : Opcode → Byte
  | .crc8 => 0x01#8
  | .crc8v => 0x02#8
  | .wclr => 0x10#8
  | .wpush => 0x11#8
  | .wget => 0x12#8
  | .wlen => 0x13#8
  | .bclr => 0x20#8
  | .bpush => 0x21#8
  | .bget => 0x22#8
  | .blen => 0x23#8
  | .enc => 0x30#8
  | .frame => 0x31#8
  | .dec => 0x32#8
  | .stat => 0x40#8
  | .eclr => 0x41#8
  | .cfgr => 0x42#8
  | .cfgw => 0x43#8

/-- R53, column `format`. -/
def Opcode.format : Opcode → Format
  | .crc8 => .A
  | .crc8v => .AB
  | .wclr => .N
  | .wpush => .A
  | .wget => .A
  | .wlen => .N
  | .bclr => .N
  | .bpush => .B
  | .bget => .A
  | .blen => .N
  | .enc => .N
  | .frame => .A
  | .dec => .N
  | .stat => .N
  | .eclr => .N
  | .cfgr => .N
  | .cfgw => .C

/-- R53, column `match`: the opcode with every operand bit 0. -/
def Opcode.matchWord (o : Opcode) : ReqWord := packRequest o.number 0#16 0#8

/-- R53, column `mask`. -/
def Opcode.mask (o : Opcode) : ReqWord := o.format.mask

/-! ## Decoding (R54) -/

/-- Why a word is illegal, in the four cases of R55. -/
inductive Reject where
  /-- R55 (a): no row has this `op` -/
  | unknownOp
  /-- R55 (b): a nonzero `b` in a format `N` or `A` request -/
  | nonzeroB
  /-- R55 (c): a nonzero `a` in a format `N`, `B` or `C` request -/
  | nonzeroA
  /-- R55 (d): a nonzero `b[7:1]` in `CFGW` -/
  | reservedB
deriving DecidableEq, Repr

/-- R54, first step: the row whose `op` equals `REQ[31:24]`. -/
def findOpcode (op : Byte) : Option Opcode := Opcode.all.find? (fun o => o.number == op)

/-- R54, second step: `(REQ & mask) == match`. -/
def Opcode.selects (o : Opcode) (w : ReqWord) : Bool := w &&& o.mask == o.matchWord

/-- R54, last step: the row's request with `a = REQ[23:8]` and `b = REQ[7:0]`. -/
def Opcode.withFields (a : Word) (b : Byte) : Opcode → Instr
  | .crc8 => .crc8 a
  | .crc8v => .crc8v a b
  | .wclr => .wclr
  | .wpush => .wpush a
  | .wget => .wget a
  | .wlen => .wlen
  | .bclr => .bclr
  | .bpush => .bpush b
  | .bget => .bget a
  | .blen => .blen
  | .enc => .enc
  | .frame => .frame a
  | .dec => .dec
  | .stat => .stat
  | .eclr => .eclr
  | .cfgr => .cfgr
  | .cfgw => .cfgw b

/-- R55 (b) to (d): the name of the field that fails the mask of row `o`; `a` is looked at first. -/
def Opcode.rejectName (o : Opcode) (w : ReqWord) : Reject :=
  if o.format.usesA = false ∧ aField w ≠ 0#16 then .nonzeroA
  else if o.format = .C then .reservedB
  else .nonzeroB

/-- R54. Reads no state. -/
def decode (w : ReqWord) : Except Reject Instr :=
  match findOpcode (opField w) with
  | none => .error .unknownOp
  | some o => if o.selects w then .ok (o.withFields (aField w) (bField w)) else .error (o.rejectName w)

/-- The word an opcode-table word stands for: bit 0 of `w` is bit 0 of `REQ`, and the bits above `nbits` are 0.
The port carries 32 bits in parallel and has no byte order (R50). -/
def tableWord (nbits w : Nat) : ReqWord := BitVec.ofNat 32 (w % 2 ^ nbits)

/-- What the decoder reads from a word numbered as spec/opcode_table.json numbers it. -/
def decodeTableWord (nbits w : Nat) : Option Instr := (decode (tableWord nbits w)).toOption

/-! ## Encoding -/

/-- The row of R53 an instruction belongs to. -/
def Instr.opcode : Instr → Opcode
  | .crc8 _ => .crc8
  | .crc8v _ _ => .crc8v
  | .wclr => .wclr
  | .wpush _ => .wpush
  | .wget _ => .wget
  | .wlen => .wlen
  | .bclr => .bclr
  | .bpush _ => .bpush
  | .bget _ => .bget
  | .blen => .blen
  | .enc => .enc
  | .frame _ => .frame
  | .dec => .dec
  | .stat => .stat
  | .eclr => .eclr
  | .cfgr => .cfgr
  | .cfgw _ => .cfgw

/-- The `a` field of the instruction's word; 0 where the format does not use it (R51). -/
def Instr.aOperand : Instr → Word
  | .crc8 w => w
  | .crc8v w _ => w
  | .wclr => 0#16
  | .wpush w => w
  | .wget i => i
  | .wlen => 0#16
  | .bclr => 0#16
  | .bpush _ => 0#16
  | .bget i => i
  | .blen => 0#16
  | .enc => 0#16
  | .frame c => c
  | .dec => 0#16
  | .stat => 0#16
  | .eclr => 0#16
  | .cfgr => 0#16
  | .cfgw _ => 0#16

/-- The `b` field of the instruction's word; 0 where the format does not use it (R51). -/
def Instr.bOperand : Instr → Byte
  | .crc8 _ => 0#8
  | .crc8v _ c => c
  | .wclr => 0#8
  | .wpush _ => 0#8
  | .wget _ => 0#8
  | .wlen => 0#8
  | .bclr => 0#8
  | .bpush b => b
  | .bget _ => 0#8
  | .blen => 0#8
  | .enc => 0#8
  | .frame _ => 0#8
  | .dec => 0#8
  | .stat => 0#8
  | .eclr => 0#8
  | .cfgr => 0#8
  | .cfgw b => b

/-- The request word of an instruction (R50, R61). -/
def encode (i : Instr) : ReqWord := packRequest i.opcode.number i.aOperand i.bOperand

end Sys2Proof
end

