-- ==== Sys2Proof/Machine/State.lean ====
section
/-! DEFINITION. The state of CRC8FC as plain data (10_state.md R10), the port's events, the reasons a step can stop, and the state after reset (R22). -/

namespace Sys2Proof.Machine

/-- Storage by index: the listed cells hold a value, an index that is not listed holds none (R11, R13, U12; log 5). -/
abbrev Cells (α : Type) := List (Nat × α)

/-- The wire space (20_memory.md R30, R31), as the host's cells. An unlisted index has no value. -/
abbrev Memory := List Host.Cell

/-- One event at the block's ports: the only two that change state (R160). -/
inductive PortEvent where
  /-- the requester presents a request word (R50) -/
  | request (w : ReqWord)
  /-- the reset input is asserted; `inFlight` is the request it catches before its response, if any (R160) -/
  | reset (inFlight : Option ReqWord)
deriving DecidableEq, Repr

/-- The five errors of 60_exceptions.md R140. -/
inductive ErrorKind where
  | framing
  | checksum
  | illegal
  | range
  | overflow
deriving DecidableEq, Repr

/-- R10: the six items `RAW`, `RAWLEN`, `WIRE`, `WIRELEN`, `STATUS`, `CFG`. Beside them stand the model's own fields:
the parameter NW (log 1), the port events still to come (log 2) and the responses produced so far (log 3). -/
structure State where
  /-- NW (R7, R24): configuration, changed by no step -/
  nw : Config.Capacity
  /-- `RAW` (R11): the readable cells, 16 bits each -/
  raw : Cells Word
  /-- `RAWLEN` (R12) -/
  rawLen : Word
  /-- `WIRE` (R13): the readable cells, 8 bits each -/
  wire : Memory
  /-- `WIRELEN` (R14) -/
  wireLen : Word
  /-- `STATUS` (R15) -/
  status : Word
  /-- `CFG` (R17) -/
  cfg : Byte
  /-- the events still to come, oldest first -/
  inputs : List PortEvent
  /-- the response words produced so far, oldest first (R172) -/
  responses : List RspWord
deriving DecidableEq, Repr

/-- The reasons a step can stop with a fault. The spec has none (60_exceptions.md R146: no fault state, no hang);
its five errors are next states. -/
inductive Fault where
  /-- Raised where a meaning reads a cell below its fill count that holds no value. Such a state breaks R11 or R13
  and no run reaches it (log 5). Safe: the model stops where the spec says nothing. -/
  | emptyCell
deriving DecidableEq, Repr

/-- The reasons a step can be refused. No request of this block is refused (R146). -/
inductive Refusal where
  /-- Raised by an arm of `exec` for an instruction without a meaning; no arm is left that does. Safe. -/
  | notModelled (mnemonic : String)
deriving DecidableEq, Repr

/-- The outcome of a meaning. -/
abbrev Result := Host.Outcome State Fault Refusal

/-- R22 for a block of capacity `nw`: both fill counts 0, `STATUS` 0, `CFG` 0, no cell readable, nothing in flight. -/
def State.resetWith (nw : Config.Capacity) : State where
  nw := nw
  raw := []
  rawLen := 0#16
  wire := []
  wireLen := 0#16
  status := 0#16
  cfg := 0#8
  inputs := []
  responses := []

/-- The machine right after reset (R22, R160), with the capacity of log 1, no event pending and no response yet. -/
def State.reset : State := State.resetWith Config.resetCapacity

end Sys2Proof.Machine
end

