-- ==== Sys2Proof/Machine/Flags.lean ====
section
/-! DEFINITION. Error codes, the sticky bits of STATUS and the option bit of CFG (10_state.md R15, R16, R17; 60_exceptions.md R140). -/

namespace Sys2Proof.Machine

/-- R52, R140: the code of a request that ends without error. -/
def codeOk : Byte := 0x00#8

/-- R140: the code of each error. -/
def ErrorKind.code : ErrorKind → Byte
  | .framing => 0x01#8
  | .checksum => 0x02#8
  | .illegal => 0x03#8
  | .range => 0x04#8
  | .overflow => 0x05#8

/-- R15: bit `c-1` of `STATUS` belongs to error code `c`. -/
def ErrorKind.statusBit (e : ErrorKind) : Word := 1#16 <<< (e.code.toNat - 1)

/-- R15: bits 4:0 are the flags, bits 15:5 read as 0. -/
def statusMask : Word := 0x001F#16

/-- What `STATUS` reads as (R15). -/
def State.readStatus (s : State) : Word := s.status &&& statusMask

/-- R17: bit 0 is `CMDCRC`, bits 7:1 are hardwired 0. -/
def cfgMask : Byte := 0x01#8

/-- What `CFG` reads as (R17). -/
def State.readCfg (s : State) : Byte := s.cfg &&& cfgMask

/-- `CFG.CMDCRC == 1` (R17). -/
def State.cmdCrc (s : State) : Bool := s.cfg.getLsbD 0

/-- `STATUS` has the sticky bit of `e`: F_FRAMING, F_CHECKSUM, F_ILLEGAL, F_RANGE or F_OVERFLOW (R15). -/
def State.flag (s : State) (e : ErrorKind) : Bool := s.readStatus.getLsbD (e.code.toNat - 1)

end Sys2Proof.Machine
end

