-- ==== Sys2Proof/Machine/Operands.lean ====
section
/-! DEFINITION. Operand and result forms: the big-endian bytes of a word, the zero extensions and the field of CFGW (20_memory.md R32, 30_encoding.md R59, 40_crc8.md R78). -/

namespace Sys2Proof.Machine

/-- `w[15:8]`, the byte at the lower index (R32). -/
def hiByte (w : Word) : Byte := w.extractLsb' 8 8

/-- `w[7:0]`, the byte at the higher index (R32). -/
def loByte (w : Word) : Byte := w.extractLsb' 0 8

/-- `{d_hi, d_lo}` (R59, R78 f). -/
def joinBytes (hi lo : Byte) : Word := hi.setWidth 16 <<< 8 ||| lo.setWidth 16

/-- The two bytes of a word in wire order (R32). -/
def wordBytes (w : Word) : List Byte := [hiByte w, loByte w]

/-- `zext_16` of a byte (R59). -/
def zext16 (b : Byte) : Word := b.setWidth 16

/-- A Boolean result as `val` (R77). -/
def boolVal (b : Bool) : Word := if b then 1#16 else 0#16

/-- A natural number as a 16-bit `val` or count; R78 (d): on every path that uses it the number fits. -/
def natVal (n : Nat) : Word := BitVec.ofNat 16 n

/-- `zext_8(b[0])` (R113). -/
def bitZero (b : Byte) : Byte := (b.extractLsb' 0 1).setWidth 8

end Sys2Proof.Machine
end

