-- ==== Sys2Proof/Machine/Ops.lean ====
section
/-! DEFINITION. The shared operations: cells, MemRead and MemWrite, the fill counts, ending a request with a result or an error, and reset. -/

namespace Sys2Proof.Machine

/-! ## Cells by index -/

/-- The value at index `i`, if it holds one. -/
def Cells.read {α : Type} : Cells α → Nat → Option α
  | [], _ => none
  | (k, v) :: rest, i => if k = i then some v else Cells.read rest i

/-- Index `i` holds `v`; the list stays in rising order. -/
def Cells.write {α : Type} : Cells α → Nat → α → Cells α
  | [], i, v => [(i, v)]
  | (k, x) :: rest, i, v =>
    if i < k then (i, v) :: (k, x) :: rest
    else if i = k then (i, v) :: rest
    else (k, x) :: Cells.write rest i v

/-- The cells below `n`; the others hold no value any more. -/
def Cells.below {α : Type} (c : Cells α) (n : Nat) : Cells α := c.filter (fun p => decide (p.1 < n))

/-- `vs` at the indices `i, i+1, ...`. -/
def Cells.writeFrom {α : Type} (c : Cells α) (i : Nat) : List α → Cells α
  | [] => c
  | v :: vs => Cells.writeFrom (Cells.write c i v) (i + 1) vs

/-- The canonical form: indices strictly rising, so none twice. -/
def Cells.wf {α : Type} : Cells α → Bool
  | [] => true
  | [_] => true
  | (i, _) :: (j, y) :: rest => decide (i < j) && Cells.wf ((j, y) :: rest)

/-- The canonical form of the wire space. An unlisted index has no value, so no entry can equal what it reads as. -/
def Memory.wf (m : Memory) : Bool := Cells.wf m

/-- The `n` values at `i, i+1, ..., i+n-1`, if every one is there. -/
def readFrom {α : Type} (get : Nat → Option α) (i : Nat) : Nat → Option (List α)
  | 0 => some []
  | n + 1 =>
    match get i with
    | none => none
    | some v => (readFrom get (i + 1) n).map (fun vs => v :: vs)

/-! ## The raw buffer (R11, R12) -/

/-- `RAW[i]`: readable only while `i < RAWLEN` (R11). -/
def State.rawCell (s : State) (i : Nat) : Option Word :=
  if i < s.rawLen.toNat then Cells.read s.raw i else none

/-- `RAW[0 .. RAWLEN-1]`. -/
def State.rawWords (s : State) : Option (List Word) := readFrom s.rawCell 0 s.rawLen.toNat

/-- `RAW[i], RAW[i+1], ... <- ws`. -/
def State.writeRaw (s : State) (i : Nat) (ws : List Word) : State :=
  { s with raw := Cells.writeFrom s.raw i ws }

/-- `RAWLEN <- n`; a cell at or beyond it holds no value from then on (R11). -/
def State.setRawLen (s : State) (n : Word) : State :=
  { s with rawLen := n, raw := Cells.below s.raw n.toNat }

/-! ## The wire buffer (R13, R14, R31, R33, R34) -/

/-- `WIRE[i]`: readable only while `i < WIRELEN` (R13). -/
def State.wireCell (s : State) (i : Nat) : Option Byte :=
  if i < s.wireLen.toNat then Cells.read s.wire i else none

/-- `WIRE[0 .. WIRELEN-1]`. -/
def State.wireBytes (s : State) : Option (List Byte) := readFrom s.wireCell 0 s.wireLen.toNat

/-- `WIRE[i], WIRE[i+1], ... <- bs`. -/
def State.writeWire (s : State) (i : Nat) (bs : List Byte) : State :=
  { s with wire := Cells.writeFrom s.wire i bs }

/-- `WIRELEN <- n`; a cell at or beyond it holds no value from then on (R13). -/
def State.setWireLen (s : State) (n : Word) : State :=
  { s with wireLen := n, wire := Cells.below s.wire n.toNat }

/-- `MemRead(addr, 1)` (R33). -/
def State.memRead1 (s : State) (addr : Nat) : Option Byte := s.wireCell addr

/-- `MemRead(addr, 2)` (R33): first byte most significant. -/
def State.memRead2 (s : State) (addr : Nat) : Option (BitVec 16) :=
  match readFrom s.wireCell addr 2 with
  | some [x, y] => some (x.setWidth 16 <<< 8 ||| y.setWidth 16)
  | _ => none

/-- `MemRead(addr, 3)` (R33): first byte most significant. -/
def State.memRead3 (s : State) (addr : Nat) : Option (BitVec 24) :=
  match readFrom s.wireCell addr 3 with
  | some [x, y, z] => some (x.setWidth 24 <<< 16 ||| y.setWidth 24 <<< 8 ||| z.setWidth 24)
  | _ => none

/-- `MemWrite(addr, 1, v)` (R34). `WIRELEN` is the caller's to set. -/
def State.memWrite1 (s : State) (addr : Nat) (v : BitVec 8) : State := s.writeWire addr [v]

/-- `MemWrite(addr, 2, v)` (R34): most significant byte first. -/
def State.memWrite2 (s : State) (addr : Nat) (v : BitVec 16) : State :=
  s.writeWire addr [v.extractLsb' 8 8, v.extractLsb' 0 8]

/-- `MemWrite(addr, 3, v)` (R34): most significant byte first. -/
def State.memWrite3 (s : State) (addr : Nat) (v : BitVec 24) : State :=
  s.writeWire addr [v.extractLsb' 16 8, v.extractLsb' 8 8, v.extractLsb' 0 8]

/-! ## Registers -/

/-- `STATUS <- STATUS | (1 << (c-1))` (R16). -/
def State.recordError (s : State) (e : ErrorKind) : State := { s with status := s.status ||| e.statusBit }

/-- `STATUS <- v`. -/
def State.setStatus (s : State) (v : Word) : State := { s with status := v }

/-- `CFG <- v`. -/
def State.setCfg (s : State) (v : Byte) : State := { s with cfg := v }

/-! ## Ending a request (R52, R143) -/

/-- R52, R143: `code` 31:24, zero 23:16, `val` 15:0, that is `(code << 24) | val`. -/
def rspWord (code : Byte) (val : Word) : RspWord := code.setWidth 32 <<< 24 ||| val.setWidth 32

/-- `code` of a response word (R52). -/
def rspCode (r : RspWord) : Byte := r.extractLsb' 24 8

/-- `val` of a response word (R52). -/
def rspVal (r : RspWord) : Word := r.extractLsb' 0 16

/-- The response word is produced. -/
def State.respond (s : State) (code : Byte) (val : Word) : State :=
  { s with responses := s.responses ++ [rspWord code val] }

/-- `return val`: the request ends with code `OK`. -/
def answer (val : Word) (s : State) : Result := .next (s.respond codeOk val)

/-- TAKING AN ERROR, `raise e(val)` (R143): the sticky bit of `e` is set, the response carries its code and `val`, and the
request ends. Nothing else is recorded (R142); the writes a rule lists before its `raise` are already in `s`. There is no
handler and no return: the next request runs as it would have without the error (R145). -/
def raise (e : ErrorKind) (val : Word) (s : State) : Result := .next ((s.recordError e).respond e.code val)

/-- Go on with the cells read; a cell below its fill count that holds no value stops the step (log 5). -/
def withCells {α : Type} (o : Option α) (k : α → Result) : Result :=
  match o with
  | none => .fault .emptyCell
  | some x => k x

/-! ## Reset (R22, R160) -/

/-- The reset input is asserted: the block's six items take the values of R22. NW is configuration and stays; the events
still to come and the responses already produced are outside the block and stay (log 13). -/
def assertReset (s : State) : State :=
  { State.resetWith s.nw with inputs := s.inputs, responses := s.responses }

end Sys2Proof.Machine
end

