-- ==== Sys2Proof/Machine/Crc8.lean ====
section
/-! DEFINITION. The CRC-8 unit (40_crc8.md): the function of R70, verify (R74) and the requests CRC8 (R76) and CRC8V (R77). -/

namespace Sys2Proof.Machine

/-- `POLY` (R8): x^8 + x^5 + x^4 + 1 with the x^8 term implicit. -/
def crcPoly : Byte := 0x31#8

/-- `INIT` (R8). -/
def crcInit : Byte := 0xFF#8

/-- `XOROUT` (R8). -/
def crcXorOut : Byte := 0x00#8

/-- One turn of R70's inner loop: shift out the top bit, and xor the polynomial if it was 1. PRESUMED by the spec itself (log 7). -/
def crcShift (c : Byte) : Byte := if c.msb then (c <<< 1) ^^^ crcPoly else c <<< 1

/-- `n` turns of the inner loop. -/
def crcShifts : Nat → Byte → Byte
  | 0, c => c
  | n + 1, c => crcShifts n (crcShift c)

/-- R70, one input byte: xor it in, then eight turns. -/
def crcByte (c byte : Byte) : Byte := crcShifts 8 (c ^^^ byte)

/-- R70's loop over the bytes of one group, from the initial value; the block runs it over two (R75 d: over three). -/
def crcOver (bs : List Byte) : Byte := bs.foldl crcByte crcInit ^^^ crcXorOut

/-- `crc8(b0, b1)` (R70). -/
def crc8 (b0 b1 : Byte) : Byte := crcOver [b0, b1]

/-- `crc8(w)`, that is `crc8(w[15:8], w[7:0])` (R70). -/
def crcWord (w : Word) : Byte := crc8 (hiByte w) (loByte w)

/-- `verify(b0, b1, crc)` (R74). -/
def verify (b0 b1 crc : Byte) : Bool := crc8 b0 b1 == crc

/-- `CRC8 word` (R76). -/
def execCrc8 (word : Word) (s : State) : Result := answer (zext16 (crcWord word)) s

/-- `CRC8V word, crc` (R77): a mismatch is a result, not an error. -/
def execCrc8v (word : Word) (crc : Byte) (s : State) : Result :=
  answer (boolVal (verify (hiByte word) (loByte word) crc)) s

end Sys2Proof.Machine
end

