-- ==== Sys2Proof/Machine/Deserializer.lean ====
section
/-! DEFINITION. The frame deserializer (42_deserializer.md): the function decode (R90) and the request DEC (R93). -/

namespace Sys2Proof.Machine

/-- The two failures of `decode` (R90). -/
inductive DecodeError where
  | framing
  | checksum (k : Nat)
deriving DecidableEq, Repr

/-- The wire-words from number `k` on, in increasing order, so the first failure is the one reported (R90, R144). Words are
delivered only if every one passed (R91). -/
def decodeFrom (k : Nat) : List Byte → Except DecodeError (List Word)
  | [] => .ok []
  | hi :: lo :: crc :: rest =>
    if verify hi lo crc then (decodeFrom (k + 1) rest).map (fun ws => joinBytes hi lo :: ws)
    else .error (.checksum k)
  | _ => .error .framing

/-- `decode(B)` (R90): the length is tested first (R144, 90_conflicts.md C4). -/
def decodeBytes (bs : List Byte) : Except DecodeError (List Word) :=
  if bs.length % 3 ≠ 0 then .error .framing else decodeFrom 0 bs

/-- `RAW[0 .. n-1] <- ws` and `RAWLEN <- n`, for the `n` words of `ws` (R93). -/
def State.putWords (s : State) (ws : List Word) : State := (s.writeRaw 0 ws).setRawLen (natVal ws.length)

/-- `DEC` (R93). Both failures set `RAWLEN <- 0` before they are raised. -/
def execDec (s : State) : Result :=
  withCells s.wireBytes (fun bs =>
    match decodeBytes bs with
    | .error .framing => raise .framing 0#16 (s.setRawLen 0#16)
    | .error (.checksum k) => raise .checksum (natVal k) (s.setRawLen 0#16)
    | .ok ws => answer (natVal ws.length) (s.putWords ws))

end Sys2Proof.Machine
end

