-- ==== Sys2Proof/Machine/RawBuffer.lean ====
section
/-! DEFINITION. The raw buffer requests WCLR, WPUSH, WGET, WLEN (43_buffer_access.md R100 to R103). -/

namespace Sys2Proof.Machine

/-- `WCLR` (R100). -/
def execWclr (s : State) : Result := answer 0#16 (s.setRawLen 0#16)

/-- `WPUSH word` (R101). -/
def execWpush (word : Word) (s : State) : Result :=
  if s.rawLen.toNat = s.nw.val then raise .overflow 0#16 s
  else answer (s.rawLen + 1#16) ((s.writeRaw s.rawLen.toNat [word]).setRawLen (s.rawLen + 1#16))

/-- `WGET index` (R102). -/
def execWget (index : Word) (s : State) : Result :=
  if s.rawLen ≤ index then raise .range 0#16 s
  else withCells (s.rawCell index.toNat) (fun w => answer w s)

/-- `WLEN` (R103). -/
def execWlen (s : State) : Result := answer s.rawLen s

end Sys2Proof.Machine
end

