-- ==== Sys2Proof/Machine/Serializer.lean ====
section
/-! DEFINITION. The frame serializer (41_serializer.md): the functions encode (R80) and frame (R81) and the requests ENC (R83) and FRAME (R84). -/

namespace Sys2Proof.Machine

/-- A wire-word (R56): the two bytes of the word, most significant first, then their CRC. -/
def wireWord (w : Word) : List Byte := wordBytes w ++ [crcWord w]

/-- `encode(W)` (R80). -/
def encodeWords (ws : List Word) : List Byte := ws.flatMap wireWord

/-- The command field of an outbound frame (R57, R81): two bytes, or a wire-word when `c` is set. -/
def frameHead (cmd : Word) (c : Bool) : List Byte := if c then wireWord cmd else wordBytes cmd

/-- `frame(cmd, W, c)` (R81). -/
def frameBytes (cmd : Word) (ws : List Word) (c : Bool) : List Byte := frameHead cmd c ++ encodeWords ws

/-- The length `h` of the command field (R57). -/
def headLength (c : Bool) : Nat := if c then 3 else 2

/-- `WIRE[0 .. m-1] <- bs` and `WIRELEN <- m`, for the `m` bytes of `bs`: the previous content is lost (R83, R84). -/
def State.putFrame (s : State) (bs : List Byte) : State := (s.writeWire 0 bs).setWireLen (natVal bs.length)

/-- `ENC` (R83). -/
def execEnc (s : State) : Result :=
  withCells s.rawWords (fun ws => answer (natVal (3 * s.rawLen.toNat)) (s.putFrame (encodeWords ws)))

/-- `FRAME cmd` (R84). -/
def execFrame (cmd : Word) (s : State) : Result :=
  if headLength s.cmdCrc + 3 * s.rawLen.toNat > 3 * s.nw.val then raise .overflow 0#16 s
  else
    withCells s.rawWords (fun ws =>
      answer (natVal (headLength s.cmdCrc + 3 * s.rawLen.toNat)) (s.putFrame (frameBytes cmd ws s.cmdCrc)))

end Sys2Proof.Machine
end

