-- ==== Sys2Proof/Machine/System.lean ====
section
/-! DEFINITION. The system requests STAT, ECLR, CFGR, CFGW (44_system.md R110 to R113). -/

namespace Sys2Proof.Machine

/-- `STAT` (R110): reading does not clear. -/
def execStat (s : State) : Result := answer s.readStatus s

/-- `ECLR` (R111). -/
def execEclr (s : State) : Result := answer 0#16 (s.setStatus 0#16)

/-- `CFGR` (R112). -/
def execCfgr (s : State) : Result := answer (zext16 s.readCfg) s

/-- `CFGW bit` (R113). A term whose reserved bits are set is the illegal word it encodes to (log 15). -/
def execCfgw (b : Byte) (s : State) : Result :=
  if b &&& 0xFE#8 = 0#8 then answer 0#16 (s.setCfg (bitZero b)) else raise .illegal 0#16 s

end Sys2Proof.Machine
end

