-- ==== Sys2Proof/Machine/WireBuffer.lean ====
section
/-! DEFINITION. The wire buffer requests BCLR, BPUSH, BGET, BLEN (43_buffer_access.md R104 to R107). -/

namespace Sys2Proof.Machine

/-- `BCLR` (R104). -/
def execBclr (s : State) : Result := answer 0#16 (s.setWireLen 0#16)

/-- `BPUSH byte` (R105). -/
def execBpush (byte : Byte) (s : State) : Result :=
  if s.wireLen.toNat = 3 * s.nw.val then raise .overflow 0#16 s
  else answer (s.wireLen + 1#16) ((s.memWrite1 s.wireLen.toNat byte).setWireLen (s.wireLen + 1#16))

/-- `BGET index` (R106). -/
def execBget (index : Word) (s : State) : Result :=
  if s.wireLen ≤ index then raise .range 0#16 s
  else withCells (s.memRead1 index.toNat) (fun b => answer (zext16 b) s)

/-- `BLEN` (R107). -/
def execBlen (s : State) : Result := answer s.wireLen s

end Sys2Proof.Machine
end

