-- ==== Sys2Proof/Machine/Dispatch.lean ====
section
/-! DEFINITION. One arm per request of spec/opcode_table.json, each one direct call of its meaning. -/

namespace Sys2Proof.Machine

def exec (i : Instr) (s : State) : Host.Outcome State Fault Refusal :=
  match i with
  -- CRC unit
  | .crc8 word => Sys2Proof.Machine.execCrc8 word s
  | .crc8v word crc => Sys2Proof.Machine.execCrc8v word crc s
  -- raw buffer
  | .wclr => Sys2Proof.Machine.execWclr s
  | .wpush word => Sys2Proof.Machine.execWpush word s
  | .wget index => Sys2Proof.Machine.execWget index s
  | .wlen => Sys2Proof.Machine.execWlen s
  -- wire buffer
  | .bclr => Sys2Proof.Machine.execBclr s
  | .bpush byte => Sys2Proof.Machine.execBpush byte s
  | .bget index => Sys2Proof.Machine.execBget index s
  | .blen => Sys2Proof.Machine.execBlen s
  -- codec
  | .enc => Sys2Proof.Machine.execEnc s
  | .frame cmd => Sys2Proof.Machine.execFrame cmd s
  | .dec => Sys2Proof.Machine.execDec s
  -- system
  | .stat => Sys2Proof.Machine.execStat s
  | .eclr => Sys2Proof.Machine.execEclr s
  | .cfgr => Sys2Proof.Machine.execCfgr s
  | .cfgw b => Sys2Proof.Machine.execCfgw b s

end Sys2Proof.Machine
end

