-- ==== Sys2Proof/Machine/Port.lean ====
section
/-! DEFINITION. What one port event does: a request word is decoded and executed, an illegal one is raised (30_encoding.md R54, R55), and reset sets R22 (70_reset_and_hazards.md R160). -/

namespace Sys2Proof.Machine

/-- R54, R55, R144 (1): the word's legality is checked first; an illegal word starts no operation. -/
def runRequest (w : ReqWord) (s : State) : Result :=
  match decode w with
  | .ok i => exec i s
  | .error _ => raise .illegal 0#16 s

/-- One event. A request caught in flight by a reset is discarded without a response (R160; log 12). -/
def runEvent (e : PortEvent) (s : State) : Result :=
  match e with
  | .request w => runRequest w s
  | .reset _ => .next (assertReset s)

end Sys2Proof.Machine
end

