-- ==== Sys2Proof/Machine/Step.lean ====
section
/-! DEFINITION. One step: the oldest port event is taken and executed whole (R2, R19, R39, R41); with none pending the block is idle. -/

namespace Sys2Proof.Machine

/-- R19: a step executes the next request and moves on whatever the response code. With no event pending nothing changes
state (R160: reset is the only event besides a request that does; log 4). -/
def step (s : State) : Host.Outcome State Fault Refusal :=
  match s.inputs with
  | [] => .next s
  | e :: rest => runEvent e { s with inputs := rest }

/-- `s` with the word as the very next request the requester presents (log 4). -/
def State.withFetchWord (s : State) (nbits w : Nat) : State :=
  { s with inputs := .request (tableWord nbits w) :: s.inputs }

end Sys2Proof.Machine
end

