-- ==== Sys2Proof/Machine/HardwareForms.lean ====
section
/-! DEFINITION. The spec's other forms of the same functions: the bit-serial register CRCR (40_crc8.md R71, R72), the table (R73), and the loops of ENC, FRAME and DEC with their MemRead and MemWrite (R83, R84, R93). No meaning calls them; statements relate them to the meanings. -/

namespace Sys2Proof.Machine

/-! ## The CRC register -/

/-- One bit-step of R71 on the register `CRCR`. -/
def serialStep (r : Byte) (d : Bool) : Byte :=
  let shifted := r <<< 1
  if (r.getLsbD 7 ^^ d) then shifted ^^^ crcPoly else shifted

/-- `b[7], b[6], ..., b[0]` (R71). -/
def bitsMsbFirst (b : Byte) : List Bool :=
  [b.getLsbD 7, b.getLsbD 6, b.getLsbD 5, b.getLsbD 4, b.getLsbD 3, b.getLsbD 2, b.getLsbD 1, b.getLsbD 0]

/-- `crc8_serial(b0, b1)` (R71). -/
def crc8Serial (b0 b1 : Byte) : Byte := (bitsMsbFirst b0 ++ bitsMsbFirst b1).foldl serialStep crcInit

/-- `T[i]` (R73): the inner eight-step loop of R70 on `c = i`. -/
def crcTable (i : Byte) : Byte := crcShifts 8 i

/-! ## The loops of the codec requests -/

/-- The 24-bit value `{w[15:8], w[7:0], crc8(w[15:8], w[7:0])}`. -/
def wireWordBits (w : Word) : BitVec 24 := 
  (hiByte w).setWidth 24 <<< 16 ||| (loByte w).setWidth 24 <<< 8 ||| (crcWord w).setWidth 24

/-- `for k in k .. k+m-1: w <- RAW[k]; MemWrite(h + 3*k, 3, ...)` (R83, R84). -/
def writeLoop (h k : Nat) : Nat → State → Option State
  | 0, s => some s
  | m + 1, s =>
    match s.rawCell k with
    | none => none
    | some w => writeLoop h (k + 1) m (s.memWrite3 (h + 3 * k) (wireWordBits w))

/-- `ENC` as R83 writes it. -/
def encLoop (s : State) : Result :=
  let n := s.rawLen.toNat
  withCells (writeLoop 0 0 n s) (fun t => answer (natVal (3 * n)) (t.setWireLen (natVal (3 * n))))

/-- `FRAME` as R84 writes it. -/
def frameLoop (cmd : Word) (s : State) : Result :=
  let n := s.rawLen.toNat
  let h := if s.cmdCrc then 3 else 2
  if h + 3 * n > 3 * s.nw.val then raise .overflow 0#16 s
  else
    let s1 := s.memWrite2 0 cmd
    let s2 := if s.cmdCrc then s1.memWrite1 2 (crcWord cmd) else s1
    withCells (writeLoop h 0 n s2) (fun t => answer (natVal (h + 3 * n)) (t.setWireLen (natVal (h + 3 * n))))

/-- `for k in k .. k+m-1: ww <- MemRead(3*k, 3); if crc8(ww[23:16], ww[15:8]) != ww[7:0]: ...` (R93):
the first failing index, or none. -/
def checkLoop (s : State) (k : Nat) : Nat → Option (Option Nat)
  | 0 => some none
  | m + 1 =>
    match s.memRead3 (3 * k) with
    | none => none
    | some ww =>
      if crc8 (ww.extractLsb' 16 8) (ww.extractLsb' 8 8) ≠ ww.extractLsb' 0 8 then some (some k)
      else checkLoop s (k + 1) m

/-- `for k in k .. k+m-1: RAW[k] <- MemRead(3*k, 2)` (R93). -/
def loadLoop (k : Nat) : Nat → State → Option State
  | 0, s => some s
  | m + 1, s =>
    match s.memRead2 (3 * k) with
    | none => none
    | some w => loadLoop (k + 1) m (s.writeRaw k [w])

/-- `DEC` as R93 writes it. -/
def decLoop (s : State) : Result :=
  let l := s.wireLen.toNat
  if l % 3 ≠ 0 then raise .framing 0#16 (s.setRawLen 0#16)
  else
    let n := l / 3
    withCells (checkLoop s 0 n) (fun bad =>
      match bad with
      | some k => raise .checksum (natVal k) (s.setRawLen 0#16)
      | none => withCells (loadLoop 0 n s) (fun t => answer (natVal n) (t.setRawLen (natVal n))))

end Sys2Proof.Machine
end

