-- ==== Sys2Proof/Machine/Requester.lean ====
section
/-! DEFINITION. The requester's side, outside the block: the assembler forms and pseudo-instructions (30_encoding.md R61, R62) and the host procedures of 45_host_protocol.md R122, R123 and R134, which present requests one at a time and go by the responses. The step calls nothing of this file. -/

namespace Sys2Proof.Machine

/-! ## Assembler (R61, R62) -/

/-- One line of a program, read into its mnemonic and its numbers (log 17). -/
inductive AsmLine where
  /-- a request of R61, its operands in the order `a` then `b` -/
  | request (o : Opcode) (operands : List Nat)
  /-- `.req 0x........` -/
  | rawWord (w : ReqWord)
  /-- `WLOAD w0, w1, ...` -/
  | wload (ws : List Nat)
  /-- `BLOAD b0, b1, ...` -/
  | bload (bs : List Nat)
deriving DecidableEq, Repr

/-- An operand that must fit `n` bits (R61: one that does not is an assembly error). -/
def fit (n x : Nat) : Option (BitVec n) := if x < 2 ^ n then some (BitVec.ofNat n x) else none

/-- R61's forms: the operands a mnemonic takes. `none` is an assembly error. -/
def asmRequest (o : Opcode) (operands : List Nat) : Option ReqWord :=
  match o.format, operands with
  | .N, [] => some (packRequest o.number 0#16 0#8)
  | .A, [x] => (fit 16 x).map (fun a => packRequest o.number a 0#8)
  | .B, [y] => (fit 8 y).map (fun b => packRequest o.number 0#16 b)
  | .AB, [x, y] => (fit 16 x).bind (fun a => (fit 8 y).map (fun b => packRequest o.number a b))
  | .C, [y] => (fit 1 y).map (fun b => packRequest o.number 0#16 (b.setWidth 8))
  | _, _ => none

/-- Every line of a list, or an assembly error. -/
def allWords : List (Option ReqWord) → Option (List ReqWord)
  | [] => some []
  | none :: _ => none
  | some w :: rest => (allWords rest).map (fun ws => w :: ws)

/-- The request words of a line (R61, R62). -/
def assembleLine : AsmLine → Option (List ReqWord)
  | .request o operands => (asmRequest o operands).map (fun w => [w])
  | .rawWord w => some [w]
  | .wload ws => allWords (asmRequest .wclr [] :: ws.map (fun w => asmRequest .wpush [w]))
  | .bload bs => allWords (asmRequest .bclr [] :: bs.map (fun b => asmRequest .bpush [b]))

/-! ## Presenting requests (R5, R6) -/

/-- How a host procedure fails. -/
inductive HostError where
  /-- `fail with r.code` (R123, R131): the response code, unchanged in kind -/
  | code (c : Byte)
  /-- `TransportError`: the transport's write or read failed (R122, R123, R131) -/
  | transport
  /-- `DEC` succeeded with another number of words than expected (93_implementation_defined.md U10; log 19) -/
  | wrongCount (val : Word)
  /-- the block's step did not go on; no state with the invariant does this (R146, log 5) -/
  | blockStopped
deriving DecidableEq, Repr

/-- The end of a host procedure: its result or its failure, and the block's state then. -/
inductive HostRun (α : Type) where
  | done (value : α) (s : State)
  | failed (e : HostError) (s : State)
deriving DecidableEq, Repr

/-- Go on with the result; a failure ends the procedure. -/
def HostRun.andThen {α β : Type} (r : HostRun α) (k : α → State → HostRun β) : HostRun β :=
  match r with
  | .done a s => k a s
  | .failed e s => .failed e s

/-- The requester presents `is`, in order, before anything still to come. -/
def State.present (s : State) (is : List Instr) : State :=
  { s with inputs := is.map (fun i => PortEvent.request (encode i)) ++ s.inputs }

/-- Present one request and take its response before anything else is presented (R6). -/
def ask (i : Instr) (s : State) : HostRun RspWord :=
  match step (s.present [i]) with
  | .next t =>
    match t.responses.getLast? with
    | some r => .done r t
    | none => .failed .blockStopped t
  | .fault _ => .failed .blockStopped s
  | .refused _ => .failed .blockStopped s

/-- Present requests one after the other, whatever their response codes, and take the responses in order. -/
def askAll : List Instr → State → HostRun (List RspWord)
  | [], s => .done [] s
  | i :: is, s =>
    (ask i s).andThen (fun r t => (askAll is t).andThen (fun rs u => .done (r :: rs) u))

/-! ## The request lists of the procedures -/

/-- R134: once, after reset and before the first `FRAME`. -/
def setupRequests (f : Config.Family) : List Instr := [.cfgw ((Config.cmdCrcOfFamily f).setWidth 8)]

/-- R122, before `FRAME`: `WCLR`, and `WPUSH arg` if there is one. -/
def argumentRequests (arg : Option Word) : List Instr := [.wclr] ++ arg.toList.map (fun w => .wpush w)

/-- R122, up to `FRAME`. -/
def commandRequests (cmd : Word) (arg : Option Word) : List Instr := argumentRequests arg ++ [.frame cmd]

/-- R122, R85: `BGET 0 .. BGET m-1`, the bytes for the transport in emission order. -/
def unloadRequests (m : Nat) : List Instr := (List.range m).map (fun i => .bget (natVal i))

/-- R123, before `DEC`: `BCLR`, and one `BPUSH` a byte. -/
def pushRequests (bytes : List Byte) : List Instr := [.bclr] ++ bytes.map (fun b => .bpush b)

/-- R123, after the transport's read, up to `DEC`. -/
def receiveRequests (bytes : List Byte) : List Instr := pushRequests bytes ++ [.dec]

/-- R123, after a `DEC` that answered `OK`: `WGET 0 .. WGET expectedWords-1`. -/
def collectRequests (expectedWords : Nat) : List Instr := (List.range expectedWords).map (fun k => .wget (natVal k))

/-! ## The procedures (R121, R122, R123, R134) -/

/-- The transport as the procedures see it (R124), an input: whether a write of these bytes succeeds, and what a read of
that length delivers, if it succeeds. Handle and address never reach the block (R40, R135). -/
structure Transport where
  write : List Byte → Bool
  read : Nat → Option (List Byte)

/-- R121: the tuple an operation maps to. `delayMs` is waited on the host's clock, which the block does not have (R170). -/
structure Operation where
  cmd : Word
  arg : Option Word
  expectedWords : Nat
  delayMs : Nat
deriving DecidableEq, Repr

/-- R134. -/
def setUp (f : Config.Family) (s : State) : HostRun (List RspWord) := askAll (setupRequests f) s

/-- R122, after `FRAME`: `bytes[i] <- (BGET i).val` for `i < m`, with `m = r.val`, then the transport's write. -/
def handOver (tr : Transport) (r : RspWord) (s : State) : HostRun (List Byte) :=
  (askAll (unloadRequests (rspVal r).toNat) s).andThen (fun rs t =>
    if tr.write (rs.map (fun q => loByte (rspVal q))) then .done (rs.map (fun q => loByte (rspVal q))) t
    else .failed .transport t)

/-- R122 `performCommand(cmd, arg?)`; the result is the bytes written. A `FRAME` that has no room is passed on (R131; log 19). -/
def performCommand (tr : Transport) (cmd : Word) (arg : Option Word) (s : State) : HostRun (List Byte) :=
  (askAll (argumentRequests arg) s).andThen (fun _ t =>
    (ask (.frame cmd) t).andThen (fun r u =>
      if rspCode r = codeOk then handOver tr r u else .failed (.code (rspCode r)) u))

/-- R123, from the transport's `bytes` on: the loop pushes bytes `0 .. expectedWords*3 - 1`, `DEC`, and the words. -/
def receive (expectedWords : Nat) (bytes : List Byte) (s : State) : HostRun (List Word) :=
  (askAll (pushRequests (bytes.take (expectedWords * 3))) s).andThen (fun _ t =>
    (ask .dec t).andThen (fun r u =>
      if rspCode r ≠ codeOk then .failed (.code (rspCode r)) u
      else if (rspVal r).toNat ≠ expectedWords then .failed (.wrongCount (rspVal r)) u
      else (askAll (collectRequests expectedWords) u).andThen (fun rs v => .done (rs.map rspVal) v)))

/-- R123 `performCommandAndRead(cmd, expectedWords, delayMs, arg?)`. The wait is no event of the block (R170). -/
def performCommandAndRead (tr : Transport) (op : Operation) (s : State) : HostRun (List Word) :=
  (performCommand tr op.cmd op.arg s).andThen (fun _ t =>
    match tr.read (op.expectedWords * 3) with
    | none => .failed .transport t
    | some bytes => receive op.expectedWords bytes t)

end Sys2Proof.Machine
end

