-- ==== Sys2Proof/Safety.lean ====
section
/-! DEFINITION. What claims are stated in: the invariant of the state (10_state.md R21 with R11 and R13), what is observed (70_reset_and_hazards.md R172), the run without a recorded error (R16). -/

namespace Sys2Proof.Machine

/-- R21, and R11 and R13: the counts are within the capacity, the reserved bits are 0, and exactly the cells below the
fill counts hold a value. -/
abbrev State.Inv (s : State) : Prop :=
  s.rawLen.toNat ≤ s.nw.val ∧
  s.wireLen.toNat ≤ 3 * s.nw.val ∧
  s.status.extractLsb' 5 11 = 0#11 ∧
  s.cfg.extractLsb' 1 7 = 0#7 ∧
  s.raw.map Prod.fst = List.range s.rawLen.toNat ∧
  s.wire.map Prod.fst = List.range s.wireLen.toNat

/-- `RAW[0 .. RAWLEN-1]` is `ws`: every readable cell, and no other. -/
abbrev State.RawIs (s : State) (ws : List Word) : Prop := ∀ i, s.rawCell i = ws[i]?

/-- `WIRE[0 .. WIRELEN-1]` is `bs`: every readable cell, and no other. -/
abbrev State.WireIs (s : State) (bs : List Byte) : Prop := ∀ i, s.wireCell i = bs[i]?

/-- R56: wire-word `k` of the wire buffer is whole, and its third byte is the CRC of its first two. -/
abbrev State.WireWordValid (s : State) (k : Nat) : Prop :=
  ∃ hi lo crc, s.wireCell (3 * k) = some hi ∧ s.wireCell (3 * k + 1) = some lo ∧
    s.wireCell (3 * k + 2) = some crc ∧ crc8 hi lo = crc

/-- The word an illegal request stands for: none (R54, R55). -/
abbrev IllegalWord (w : ReqWord) : Prop := ∀ i, decode w ≠ .ok i

/-- R16: no fault recorded since the last `ECLR` or reset. -/
abbrev State.NoErrorRecorded (s : State) : Prop := s.readStatus = 0#16

/-- R172: the run has ended, every event has been taken. -/
abbrev State.RunEnded (s : State) : Prop := s.inputs = []

/-- R172: what is observed of a state. -/
structure Observation where
  responses : List RspWord
  rawLen : Word
  raw : Option (List Word)
  wireLen : Word
  wire : Option (List Byte)
  status : Word
  cfg : Byte
deriving DecidableEq, Repr

/-- R172. -/
def State.observe (s : State) : Observation where
  responses := s.responses
  rawLen := s.rawLen
  raw := s.rawWords
  wireLen := s.wireLen
  wire := s.wireBytes
  status := s.readStatus
  cfg := s.readCfg

end Sys2Proof.Machine
end

