-- ==== Sys2Proof/Certificates/Slice0/Obligations.lean ====
section
/-! DEFINITION. The statements for the provers. Each docstring names the rule of the spec it formalises. Response words are written out: code 31:24, zero 23:16, val 15:0 (R52). -/

open Sys2Proof Sys2Proof.Machine

/-! ## The CRC function -/

/-- S1 and V1 of 95_test_vectors.md: reference values of `crc8`, the first of them the source's own. -/
def Obligations.CrcReferenceValues : Prop :=
  crc8 0x00#8 0x00#8 = 0x81#8 ∧ crc8 0xBE#8 0xEF#8 = 0x92#8 ∧ crc8 0x01#8 0x90#8 = 0x4C#8 ∧
  crc8 0xFF#8 0x00#8 = 0x00#8 ∧ crc8 0x80#8 0x00#8 = 0xA2#8 ∧ crc8 0xFF#8 0xFF#8 = 0xAC#8 ∧
  crc8 0x12#8 0x34#8 = 0x37#8 ∧ crc8 0x00#8 0x01#8 = 0xB0#8

/-- R70's loop over the two bytes, written out. The algorithm is what the spec marks "from general knowledge, not in
source" (log 7); DOC0's own value is the one of S1. -/
def Obligations.Crc8IsTheBytewiseLoop : Prop :=
  ∀ b0 b1 : Byte,
    crc8 b0 b1 = [b0, b1].foldl (fun (c : Byte) (byte : Byte) =>
      (List.range 8).foldl (fun (c : Byte) (_ : Nat) =>
        if c.getLsbD 7 then ((c <<< 1) &&& 0xFF#8) ^^^ 0x31#8 else (c <<< 1) &&& 0xFF#8) (c ^^^ byte)) 0xFF#8

/-- R71: the bit-serial register, fed the 16 bits in the order written, gives the same CRC for every pair of bytes. -/
def Obligations.SerialRegisterComputesCrc : Prop :=
  ∀ b0 b1 : Byte,
    crc8Serial b0 b1 =
      [b0.getLsbD 7, b0.getLsbD 6, b0.getLsbD 5, b0.getLsbD 4, b0.getLsbD 3, b0.getLsbD 2, b0.getLsbD 1, b0.getLsbD 0,
       b1.getLsbD 7, b1.getLsbD 6, b1.getLsbD 5, b1.getLsbD 4, b1.getLsbD 3, b1.getLsbD 2, b1.getLsbD 1, b1.getLsbD 0].foldl
        (fun (r : Byte) (d : Bool) => if (r.getLsbD 7 ^^ d) then ((r <<< 1) &&& 0xFF#8) ^^^ 0x31#8 else (r <<< 1) &&& 0xFF#8) 0xFF#8 ∧
    crc8Serial b0 b1 = crc8 b0 b1

/-- R72: the next-state equations of one bit-step. -/
def Obligations.GateEquationsOfOneBitStep : Prop :=
  ∀ (r : Byte) (d : Bool),
    (serialStep r d).getLsbD 0 = (r.getLsbD 7 ^^ d) ∧
    (serialStep r d).getLsbD 1 = r.getLsbD 0 ∧
    (serialStep r d).getLsbD 2 = r.getLsbD 1 ∧
    (serialStep r d).getLsbD 3 = r.getLsbD 2 ∧
    (serialStep r d).getLsbD 4 = (r.getLsbD 3 ^^ (r.getLsbD 7 ^^ d)) ∧
    (serialStep r d).getLsbD 5 = (r.getLsbD 4 ^^ (r.getLsbD 7 ^^ d)) ∧
    (serialStep r d).getLsbD 6 = r.getLsbD 5 ∧
    (serialStep r d).getLsbD 7 = r.getLsbD 6

/-- R73: `T[i]` is the inner loop run on `i`, the CRC through two look-ups, and the 256 values as V6 of
95_test_vectors.md lists them, a row of 16 a line. -/
def Obligations.TableFormOfCrc : Prop :=
  (∀ i : Byte, crcTable i = (List.range 8).foldl (fun (c : Byte) (_ : Nat) =>
    if c.getLsbD 7 then ((c <<< 1) &&& 0xFF#8) ^^^ 0x31#8 else (c <<< 1) &&& 0xFF#8) i) ∧
  (∀ b0 b1 : Byte, crc8 b0 b1 = crcTable (crcTable (0xFF#8 ^^^ b0) ^^^ b1)) ∧
  (List.range 256).map (fun n => crcTable (BitVec.ofNat 8 n)) =
    [0x00#8, 0x31#8, 0x62#8, 0x53#8, 0xC4#8, 0xF5#8, 0xA6#8, 0x97#8, 0xB9#8, 0x88#8, 0xDB#8, 0xEA#8, 0x7D#8, 0x4C#8, 0x1F#8, 0x2E#8] ++
    [0x43#8, 0x72#8, 0x21#8, 0x10#8, 0x87#8, 0xB6#8, 0xE5#8, 0xD4#8, 0xFA#8, 0xCB#8, 0x98#8, 0xA9#8, 0x3E#8, 0x0F#8, 0x5C#8, 0x6D#8] ++
    [0x86#8, 0xB7#8, 0xE4#8, 0xD5#8, 0x42#8, 0x73#8, 0x20#8, 0x11#8, 0x3F#8, 0x0E#8, 0x5D#8, 0x6C#8, 0xFB#8, 0xCA#8, 0x99#8, 0xA8#8] ++
    [0xC5#8, 0xF4#8, 0xA7#8, 0x96#8, 0x01#8, 0x30#8, 0x63#8, 0x52#8, 0x7C#8, 0x4D#8, 0x1E#8, 0x2F#8, 0xB8#8, 0x89#8, 0xDA#8, 0xEB#8] ++
    [0x3D#8, 0x0C#8, 0x5F#8, 0x6E#8, 0xF9#8, 0xC8#8, 0x9B#8, 0xAA#8, 0x84#8, 0xB5#8, 0xE6#8, 0xD7#8, 0x40#8, 0x71#8, 0x22#8, 0x13#8] ++
    [0x7E#8, 0x4F#8, 0x1C#8, 0x2D#8, 0xBA#8, 0x8B#8, 0xD8#8, 0xE9#8, 0xC7#8, 0xF6#8, 0xA5#8, 0x94#8, 0x03#8, 0x32#8, 0x61#8, 0x50#8] ++
    [0xBB#8, 0x8A#8, 0xD9#8, 0xE8#8, 0x7F#8, 0x4E#8, 0x1D#8, 0x2C#8, 0x02#8, 0x33#8, 0x60#8, 0x51#8, 0xC6#8, 0xF7#8, 0xA4#8, 0x95#8] ++
    [0xF8#8, 0xC9#8, 0x9A#8, 0xAB#8, 0x3C#8, 0x0D#8, 0x5E#8, 0x6F#8, 0x41#8, 0x70#8, 0x23#8, 0x12#8, 0x85#8, 0xB4#8, 0xE7#8, 0xD6#8] ++
    [0x7A#8, 0x4B#8, 0x18#8, 0x29#8, 0xBE#8, 0x8F#8, 0xDC#8, 0xED#8, 0xC3#8, 0xF2#8, 0xA1#8, 0x90#8, 0x07#8, 0x36#8, 0x65#8, 0x54#8] ++
    [0x39#8, 0x08#8, 0x5B#8, 0x6A#8, 0xFD#8, 0xCC#8, 0x9F#8, 0xAE#8, 0x80#8, 0xB1#8, 0xE2#8, 0xD3#8, 0x44#8, 0x75#8, 0x26#8, 0x17#8] ++
    [0xFC#8, 0xCD#8, 0x9E#8, 0xAF#8, 0x38#8, 0x09#8, 0x5A#8, 0x6B#8, 0x45#8, 0x74#8, 0x27#8, 0x16#8, 0x81#8, 0xB0#8, 0xE3#8, 0xD2#8] ++
    [0xBF#8, 0x8E#8, 0xDD#8, 0xEC#8, 0x7B#8, 0x4A#8, 0x19#8, 0x28#8, 0x06#8, 0x37#8, 0x64#8, 0x55#8, 0xC2#8, 0xF3#8, 0xA0#8, 0x91#8] ++
    [0x47#8, 0x76#8, 0x25#8, 0x14#8, 0x83#8, 0xB2#8, 0xE1#8, 0xD0#8, 0xFE#8, 0xCF#8, 0x9C#8, 0xAD#8, 0x3A#8, 0x0B#8, 0x58#8, 0x69#8] ++
    [0x04#8, 0x35#8, 0x66#8, 0x57#8, 0xC0#8, 0xF1#8, 0xA2#8, 0x93#8, 0xBD#8, 0x8C#8, 0xDF#8, 0xEE#8, 0x79#8, 0x48#8, 0x1B#8, 0x2A#8] ++
    [0xC1#8, 0xF0#8, 0xA3#8, 0x92#8, 0x05#8, 0x34#8, 0x67#8, 0x56#8, 0x78#8, 0x49#8, 0x1A#8, 0x2B#8, 0xBC#8, 0x8D#8, 0xDE#8, 0xEF#8] ++
    [0x82#8, 0xB3#8, 0xE0#8, 0xD1#8, 0x46#8, 0x77#8, 0x24#8, 0x15#8, 0x3B#8, 0x0A#8, 0x59#8, 0x68#8, 0xFF#8, 0xCE#8, 0x9D#8, 0xAC#8]

/-- R74: `verify` compares, and is true for exactly one CRC byte per pair. -/
def Obligations.VerifyAcceptsExactlyOneByte : Prop :=
  ∀ b0 b1 : Byte, (∀ crc, verify b0 b1 crc = true ↔ crc8 b0 b1 = crc) ∧ (∃! crc, verify b0 b1 crc = true)

/-- R75 (b): flipping any one of the 24 bits of a valid wire-word is detected, for every word. -/
def Obligations.SingleBitFlipIsDetected : Prop :=
  ∀ (b0 b1 : Byte) (i : Nat), i < 8 →
    verify (b0 ^^^ (1#8 <<< i)) b1 (crc8 b0 b1) = false ∧
    verify b0 (b1 ^^^ (1#8 <<< i)) (crc8 b0 b1) = false ∧
    verify b0 b1 (crc8 b0 b1 ^^^ (1#8 <<< i)) = false

/-- R75 (a), (d), (e): round trip, zero residue over the three bytes, and for a fixed first byte a bijection in the second
(so each CRC value belongs to one word per first byte, 256 of them). -/
def Obligations.CrcResidueAndBijection : Prop :=
  (∀ b0 b1 : Byte, verify b0 b1 (crc8 b0 b1) = true) ∧
  (∀ b0 b1 : Byte, crcOver [b0, b1, crc8 b0 b1] = 0x00#8) ∧
  (∀ b0 : Byte, Function.Bijective (fun b1 => crc8 b0 b1))

/-! ## The CRC requests -/

/-- R76: encoding, result, frame and the rule's values of `CRC8`. -/
def Obligations.Crc8RequestComputesCrc : Prop :=
  (∀ w : ReqWord, w.extractLsb' 24 8 = 0x01#8 →
    (w.extractLsb' 0 8 = 0#8 → decode w = .ok (.crc8 (w.extractLsb' 8 16))) ∧
    (w.extractLsb' 0 8 ≠ 0#8 → decode w = .error .nonzeroB)) ∧
  (∀ (a : Word) (s : State), exec (.crc8 a) s =
    .next { s with responses := s.responses ++ [(crc8 (a.extractLsb' 8 8) (a.extractLsb' 0 8)).setWidth 32] }) ∧
  crc8 0x00#8 0x00#8 = 0x81#8 ∧ crc8 0xFF#8 0x00#8 = 0x00#8 ∧ crc8 0xBE#8 0xEF#8 = 0x92#8

/-- R77: encoding (every `a` and `b` legal), result and frame of `CRC8V`; a mismatch is code OK, val 0; for each `a`, in each
state, exactly one `b` answers 1. -/
def Obligations.Crc8vRequestVerifies : Prop :=
  (∀ w : ReqWord, w.extractLsb' 24 8 = 0x02#8 → decode w = .ok (.crc8v (w.extractLsb' 8 16) (w.extractLsb' 0 8))) ∧
  (∀ (a : Word) (b : Byte) (s : State),
    exec (.crc8v a b) s =
      .next { s with responses := s.responses ++
        [if crc8 (a.extractLsb' 8 8) (a.extractLsb' 0 8) = b then 0x00000001#32 else 0x00000000#32] }) ∧
  (∀ (a : Word) (s : State), ∃! b : Byte,
    exec (.crc8v a b) s = .next { s with responses := s.responses ++ [0x00000001#32] })

/-! ## The raw buffer requests -/

/-- R100: `WCLR`. -/
def Obligations.WclrEmptiesRaw : Prop :=
  decode 0x10000000#32 = .ok .wclr ∧ (∀ w : ReqWord, w.extractLsb' 24 8 = 0x10#8 → w ≠ 0x10000000#32 → IllegalWord w) ∧
  ∀ s : State, exec .wclr s =
    .next { s with raw := [], rawLen := 0#16, responses := s.responses ++ [0x00000000#32] }

/-- R101: `WPUSH` on a buffer with room, and on a full one. -/
def Obligations.WpushAppendsOrOverflows : Prop :=
  (∀ w : ReqWord, w.extractLsb' 24 8 = 0x11#8 →
    (w.extractLsb' 0 8 = 0#8 → decode w = .ok (.wpush (w.extractLsb' 8 16))) ∧
    (w.extractLsb' 0 8 ≠ 0#8 → decode w = .error .nonzeroB)) ∧
  ∀ (s : State) (a : Word), s.Inv →
    (s.rawLen.toNat = s.nw.val → exec (.wpush a) s =
      .next { s with status := s.status ||| 0x0010#16, responses := s.responses ++ [0x05000000#32] }) ∧
    (s.rawLen.toNat < s.nw.val → ∃ t, exec (.wpush a) s = .next t ∧
      t = { s with raw := t.raw, rawLen := s.rawLen + 1#16, responses := s.responses ++ [(s.rawLen + 1#16).setWidth 32] } ∧
      t.rawLen.toNat = s.rawLen.toNat + 1 ∧
      ∀ i, t.rawCell i = if i = s.rawLen.toNat then some a else s.rawCell i)

/-- R102: `WGET` below the fill count, and at or beyond it. -/
def Obligations.WgetReadsOrRangeError : Prop :=
  (∀ w : ReqWord, w.extractLsb' 24 8 = 0x12#8 →
    (w.extractLsb' 0 8 = 0#8 → decode w = .ok (.wget (w.extractLsb' 8 16))) ∧
    (w.extractLsb' 0 8 ≠ 0#8 → decode w = .error .nonzeroB)) ∧
  ∀ (s : State) (a : Word), s.Inv →
    (a.toNat < s.rawLen.toNat → ∃ w, s.rawCell a.toNat = some w ∧
      exec (.wget a) s = .next { s with responses := s.responses ++ [w.setWidth 32] }) ∧
    (s.rawLen.toNat ≤ a.toNat → exec (.wget a) s =
      .next { s with status := s.status ||| 0x0008#16, responses := s.responses ++ [0x04000000#32] })

/-- R103: `WLEN`. -/
def Obligations.WlenReadsFillCount : Prop :=
  decode 0x13000000#32 = .ok .wlen ∧ (∀ w : ReqWord, w.extractLsb' 24 8 = 0x13#8 → w ≠ 0x13000000#32 → IllegalWord w) ∧
  ∀ s : State, exec .wlen s = .next { s with responses := s.responses ++ [s.rawLen.setWidth 32] }

/-! ## The wire buffer requests -/

/-- R104: `BCLR`. -/
def Obligations.BclrEmptiesWire : Prop :=
  decode 0x20000000#32 = .ok .bclr ∧ (∀ w : ReqWord, w.extractLsb' 24 8 = 0x20#8 → w ≠ 0x20000000#32 → IllegalWord w) ∧
  ∀ s : State, exec .bclr s =
    .next { s with wire := [], wireLen := 0#16, responses := s.responses ++ [0x00000000#32] }

/-- R105: `BPUSH` on a buffer with room, and on a full one; every byte of WIRE but the one stored is as before. -/
def Obligations.BpushAppendsOrOverflows : Prop :=
  (∀ w : ReqWord, w.extractLsb' 24 8 = 0x21#8 →
    (w.extractLsb' 8 16 = 0#16 → decode w = .ok (.bpush (w.extractLsb' 0 8))) ∧
    (w.extractLsb' 8 16 ≠ 0#16 → decode w = .error .nonzeroA)) ∧
  ∀ (s : State) (b : Byte), s.Inv →
    (s.wireLen.toNat = 3 * s.nw.val → exec (.bpush b) s =
      .next { s with status := s.status ||| 0x0010#16, responses := s.responses ++ [0x05000000#32] }) ∧
    (s.wireLen.toNat < 3 * s.nw.val → ∃ t, exec (.bpush b) s = .next t ∧
      t = { s with wire := t.wire, wireLen := s.wireLen + 1#16, responses := s.responses ++ [(s.wireLen + 1#16).setWidth 32] } ∧
      t.wireLen.toNat = s.wireLen.toNat + 1 ∧
      ∀ i, t.wireCell i = if i = s.wireLen.toNat then some b else s.wireCell i)

/-- R106: `BGET` below the fill count, and at or beyond it. -/
def Obligations.BgetReadsOrRangeError : Prop :=
  (∀ w : ReqWord, w.extractLsb' 24 8 = 0x22#8 →
    (w.extractLsb' 0 8 = 0#8 → decode w = .ok (.bget (w.extractLsb' 8 16))) ∧
    (w.extractLsb' 0 8 ≠ 0#8 → decode w = .error .nonzeroB)) ∧
  ∀ (s : State) (a : Word), s.Inv →
    (a.toNat < s.wireLen.toNat → ∃ b, s.wireCell a.toNat = some b ∧
      exec (.bget a) s = .next { s with responses := s.responses ++ [b.setWidth 32] }) ∧
    (s.wireLen.toNat ≤ a.toNat → exec (.bget a) s =
      .next { s with status := s.status ||| 0x0008#16, responses := s.responses ++ [0x04000000#32] })

/-- R107: `BLEN`. -/
def Obligations.BlenReadsFillCount : Prop :=
  decode 0x23000000#32 = .ok .blen ∧ (∀ w : ReqWord, w.extractLsb' 24 8 = 0x23#8 → w ≠ 0x23000000#32 → IllegalWord w) ∧
  ∀ s : State, exec .blen s = .next { s with responses := s.responses ++ [s.wireLen.setWidth 32] }

/-! ## The codec functions -/

/-- R80: the layout of `encode(W)`, the empty sequence, and concatenation. -/
def Obligations.EncodeLaysOutWireWords : Prop :=
  (∀ (ws : List Word) (k : Nat) (w : Word), ws[k]? = some w →
    (encodeWords ws)[3 * k]? = some (w.extractLsb' 8 8) ∧
    (encodeWords ws)[3 * k + 1]? = some (w.extractLsb' 0 8) ∧
    (encodeWords ws)[3 * k + 2]? = some (crc8 (w.extractLsb' 8 8) (w.extractLsb' 0 8))) ∧
  (∀ ws : List Word, (encodeWords ws).length = 3 * ws.length) ∧
  encodeWords [] = [] ∧
  (∀ ws vs : List Word, encodeWords (ws ++ vs) = encodeWords ws ++ encodeWords vs)

/-- R81: the outbound frame for both values of `c`. -/
def Obligations.FrameIsHeadThenEncodedWords : Prop :=
  ∀ (cmd : Word) (ws : List Word),
    frameBytes cmd ws false = [cmd.extractLsb' 8 8, cmd.extractLsb' 0 8] ++ encodeWords ws ∧
    frameBytes cmd ws true =
      [cmd.extractLsb' 8 8, cmd.extractLsb' 0 8, crc8 (cmd.extractLsb' 8 8) (cmd.extractLsb' 0 8)] ++ encodeWords ws ∧
    frameBytes cmd ws true = encodeWords ([cmd] ++ ws) ∧
    frameBytes cmd [] false = [cmd.extractLsb' 8 8, cmd.extractLsb' 0 8]

/-- R82: the length laws. -/
def Obligations.FrameLengthLaws : Prop :=
  ∀ (cmd : Word) (ws : List Word) (c : Bool),
    (encodeWords ws).length = 3 * ws.length ∧
    (frameBytes cmd ws c).length = 2 + (if c then 1 else 0) + 3 * ws.length

/-- R90: `decode(B)` in its three outcomes: a length that is no multiple of 3, the first wire-word that fails, or all words. -/
def Obligations.DecodeFindsFirstFailure : Prop :=
  ∀ bs : List Byte,
    (bs.length % 3 ≠ 0 → decodeBytes bs = .error .framing) ∧
    (bs.length % 3 = 0 →
      (∀ k, k < bs.length / 3 → crc8 bs[3 * k]! bs[3 * k + 1]! ≠ bs[3 * k + 2]! →
        (∀ j, j < k → crc8 bs[3 * j]! bs[3 * j + 1]! = bs[3 * j + 2]!) → decodeBytes bs = .error (.checksum k)) ∧
      ((∀ k, k < bs.length / 3 → crc8 bs[3 * k]! bs[3 * k + 1]! = bs[3 * k + 2]!) →
        decodeBytes bs = .ok ((List.range (bs.length / 3)).map (fun k => BitVec.ofNat 16 (bs[3 * k]!.toNat * 256 + bs[3 * k + 1]!.toNat)))))

/-- R92: the laws (a) to (e) that tie `decode` to `encode` and `frame`. -/
def Obligations.DecodeInvertsEncode : Prop :=
  (∀ ws : List Word, decodeBytes (encodeWords ws) = .ok ws) ∧
  (∀ (bs : List Byte) (ws : List Word), decodeBytes bs = .ok ws → 3 * ws.length = bs.length ∧ encodeWords ws = bs) ∧
  (∀ (ws : List Word) (j i : Nat) (b : Byte), (encodeWords ws)[j]? = some b → i < 8 →
    decodeBytes ((encodeWords ws).set j (b ^^^ (1#8 <<< i))) = .error (.checksum (j / 3))) ∧
  (∀ (cmd : Word) (ws : List Word),
    decodeBytes (frameBytes cmd ws true) = .ok (cmd :: ws) ∧ decodeBytes (frameBytes cmd ws false) = .error .framing)

/-! ## The codec requests -/

/-- R83: `ENC` completes, leaves exactly `encode(RAW)` readable in WIRE, and changes nothing but WIRE, WIRELEN and the response. -/
def Obligations.EncSerializesRaw : Prop :=
  decode 0x30000000#32 = .ok .enc ∧ (∀ w : ReqWord, w.extractLsb' 24 8 = 0x30#8 → w ≠ 0x30000000#32 → IllegalWord w) ∧
  ∀ (s : State) (ws : List Word), s.Inv → s.RawIs ws → ∃ t, exec .enc s = .next t ∧
    t = { s with wire := t.wire, wireLen := BitVec.ofNat 16 (3 * s.rawLen.toNat),
                 responses := s.responses ++ [(BitVec.ofNat 16 (3 * s.rawLen.toNat)).setWidth 32] } ∧
    t.wireLen.toNat = 3 * s.rawLen.toNat ∧
    t.WireIs (encodeWords ws)

/-- R84: `FRAME` completes exactly when `RAWLEN` is not NW, leaves exactly the frame readable in WIRE, and changes nothing
but WIRE, WIRELEN and the response; with a full RAW it is an `OverflowError`. -/
def Obligations.FrameBuildsOrOverflows : Prop :=
  (∀ w : ReqWord, w.extractLsb' 24 8 = 0x31#8 →
    (w.extractLsb' 0 8 = 0#8 → decode w = .ok (.frame (w.extractLsb' 8 16))) ∧
    (w.extractLsb' 0 8 ≠ 0#8 → decode w = .error .nonzeroB)) ∧
  ∀ (s : State) (ws : List Word) (cmd : Word) (h : Nat), s.Inv → s.RawIs ws →
    h = (if s.cfg.getLsbD 0 then 3 else 2) →
    (s.rawLen.toNat = s.nw.val → exec (.frame cmd) s =
      .next { s with status := s.status ||| 0x0010#16, responses := s.responses ++ [0x05000000#32] }) ∧
    (s.rawLen.toNat < s.nw.val → ∃ t, exec (.frame cmd) s = .next t ∧
      t = { s with wire := t.wire, wireLen := BitVec.ofNat 16 (h + 3 * s.rawLen.toNat),
                   responses := s.responses ++ [(BitVec.ofNat 16 (h + 3 * s.rawLen.toNat)).setWidth 32] } ∧
      t.wireLen.toNat = h + 3 * s.rawLen.toNat ∧
      t.WireIs (frameBytes cmd ws (s.cfg.getLsbD 0)))

/-- R93: `DEC` in its three outcomes, with everything each changes. -/
def Obligations.DecExtractsOrFails : Prop :=
  decode 0x32000000#32 = .ok .dec ∧ (∀ w : ReqWord, w.extractLsb' 24 8 = 0x32#8 → w ≠ 0x32000000#32 → IllegalWord w) ∧
  ∀ s : State, s.Inv →
    (s.wireLen.toNat % 3 ≠ 0 → exec .dec s =
      .next { s with raw := [], rawLen := 0#16, status := s.status ||| 0x0001#16,
                     responses := s.responses ++ [0x01000000#32] }) ∧
    (s.wireLen.toNat % 3 = 0 → ∀ k, k < s.wireLen.toNat / 3 → ¬ s.WireWordValid k →
      (∀ j, j < k → s.WireWordValid j) → exec .dec s =
      .next { s with raw := [], rawLen := 0#16, status := s.status ||| 0x0002#16,
                     responses := s.responses ++ [0x02000000#32 ||| (BitVec.ofNat 16 k).setWidth 32] }) ∧
    (s.wireLen.toNat % 3 = 0 → (∀ k, k < s.wireLen.toNat / 3 → s.WireWordValid k) → ∃ t, exec .dec s = .next t ∧
      t = { s with raw := t.raw, rawLen := BitVec.ofNat 16 (s.wireLen.toNat / 3),
                   responses := s.responses ++ [(BitVec.ofNat 16 (s.wireLen.toNat / 3)).setWidth 32] } ∧
      t.rawLen.toNat = s.wireLen.toNat / 3 ∧
      (∀ k, k < s.wireLen.toNat / 3 → ∃ hi lo, s.wireCell (3 * k) = some hi ∧ s.wireCell (3 * k + 1) = some lo ∧
        t.rawCell k = some (BitVec.ofNat 16 (hi.toNat * 256 + lo.toNat))) ∧
      (∀ k, s.wireLen.toNat / 3 ≤ k → t.rawCell k = none))

/-! ## The system requests -/

/-- R110: `STAT`; bits 15:5 are always 0 in the response. -/
def Obligations.StatReadsStatus : Prop :=
  decode 0x40000000#32 = .ok .stat ∧ (∀ w : ReqWord, w.extractLsb' 24 8 = 0x40#8 → w ≠ 0x40000000#32 → IllegalWord w) ∧
  ∀ s : State,
    exec .stat s = .next { s with responses := s.responses ++ [(s.status &&& 0x001F#16).setWidth 32] } ∧
    (s.Inv → s.status &&& 0x001F#16 = s.status)

/-- R111: `ECLR`. -/
def Obligations.EclrClearsStatus : Prop :=
  decode 0x41000000#32 = .ok .eclr ∧ (∀ w : ReqWord, w.extractLsb' 24 8 = 0x41#8 → w ≠ 0x41000000#32 → IllegalWord w) ∧
  ∀ s : State, exec .eclr s = .next { s with status := 0#16, responses := s.responses ++ [0x00000000#32] }

/-- R112: `CFGR`. -/
def Obligations.CfgrReadsConfiguration : Prop :=
  decode 0x42000000#32 = .ok .cfgr ∧ (∀ w : ReqWord, w.extractLsb' 24 8 = 0x42#8 → w ≠ 0x42000000#32 → IllegalWord w) ∧
  ∀ s : State,
    exec .cfgr s = .next { s with responses := s.responses ++ [(s.cfg &&& 0x01#8).setWidth 32] } ∧
    (s.Inv → s.cfg &&& 0x01#8 = s.cfg ∧ (s.cfg = 0x00#8 ∨ s.cfg = 0x01#8))

/-- R113: `CFGW`, its legal operands, and the words that are illegal and leave CFG unchanged. -/
def Obligations.CfgwWritesOptionBit : Prop :=
  (∀ w : ReqWord, w.extractLsb' 24 8 = 0x43#8 → w.extractLsb' 1 23 = 0#23 →
    decode w = .ok (.cfgw (w.extractLsb' 0 8))) ∧
  (∀ (bit : BitVec 1) (s : State), exec (.cfgw (bit.setWidth 8)) s =
      .next { s with cfg := bit.setWidth 8, responses := s.responses ++ [0x00000000#32] }) ∧
  (∀ (w : ReqWord) (s : State), w.extractLsb' 24 8 = 0x43#8 → w.extractLsb' 1 23 ≠ 0#23 → runRequest w s =
      .next { s with status := s.status ||| 0x0004#16, responses := s.responses ++ [0x03000000#32] })

/-! ## Encoding and decoding requests -/

/-- R53: the 17 rows with `op`, format, match, mask and operands, no two with one `op`, and every other word illegal. -/
def Obligations.OpcodeMapIsTheTable : Prop :=
  Opcode.all.map (fun o => (o.number, o.format, o.matchWord, o.mask)) =
    [(0x01#8, Format.A, 0x01000000#32, 0xFF0000FF#32), (0x02#8, Format.AB, 0x02000000#32, 0xFF000000#32), (0x10#8, Format.N, 0x10000000#32, 0xFFFFFFFF#32),
     (0x11#8, Format.A, 0x11000000#32, 0xFF0000FF#32), (0x12#8, Format.A, 0x12000000#32, 0xFF0000FF#32), (0x13#8, Format.N, 0x13000000#32, 0xFFFFFFFF#32),
     (0x20#8, Format.N, 0x20000000#32, 0xFFFFFFFF#32), (0x21#8, Format.B, 0x21000000#32, 0xFFFFFF00#32), (0x22#8, Format.A, 0x22000000#32, 0xFF0000FF#32),
     (0x23#8, Format.N, 0x23000000#32, 0xFFFFFFFF#32), (0x30#8, Format.N, 0x30000000#32, 0xFFFFFFFF#32), (0x31#8, Format.A, 0x31000000#32, 0xFF0000FF#32),
     (0x32#8, Format.N, 0x32000000#32, 0xFFFFFFFF#32), (0x40#8, Format.N, 0x40000000#32, 0xFFFFFFFF#32), (0x41#8, Format.N, 0x41000000#32, 0xFFFFFFFF#32),
     (0x42#8, Format.N, 0x42000000#32, 0xFFFFFFFF#32), (0x43#8, Format.C, 0x43000000#32, 0xFFFFFFFE#32)] ∧
  (∀ (a : Word) (b : Byte), Opcode.all.map (Opcode.withFields a b) =
    [.crc8 a, .crc8v a b, .wclr, .wpush a, .wget a, .wlen, .bclr, .bpush b, .bget a, .blen, .enc, .frame a, .dec,
     .stat, .eclr, .cfgr, .cfgw b]) ∧
  Opcode.all.Pairwise (fun o p => o.number ≠ p.number) ∧
  (∀ w : ReqWord, (∀ o ∈ Opcode.all, w &&& o.mask ≠ o.matchWord) → IllegalWord w)

/-- V11: one word of every row, as spec/95_test_vectors.md writes it out; and from V9 a word with a reserved bit. -/
def Obligations.SampleWordsDecode : Prop :=
  decode 0x01BEEF00#32 = .ok (.crc8 0xBEEF#16) ∧ decode 0x02BEEF92#32 = .ok (.crc8v 0xBEEF#16 0x92#8) ∧
  decode 0x10000000#32 = .ok .wclr ∧ decode 0x11019000#32 = .ok (.wpush 0x0190#16) ∧
  decode 0x12000200#32 = .ok (.wget 0x0002#16) ∧ decode 0x13000000#32 = .ok .wlen ∧
  decode 0x20000000#32 = .ok .bclr ∧ decode 0x2100004C#32 = .ok (.bpush 0x4C#8) ∧
  decode 0x22000500#32 = .ok (.bget 0x0005#16) ∧ decode 0x23000000#32 = .ok .blen ∧
  decode 0x30000000#32 = .ok .enc ∧ decode 0x31368200#32 = .ok (.frame 0x3682#16) ∧
  decode 0x32000000#32 = .ok .dec ∧ decode 0x40000000#32 = .ok .stat ∧ decode 0x41000000#32 = .ok .eclr ∧
  decode 0x42000000#32 = .ok .cfgr ∧ decode 0x43000001#32 = .ok (.cfgw 0x01#8) ∧
  decode 0x43000002#32 = .error .reservedB

/-- R54: a word is a request exactly when one row selects it, that row is the only one, and its operands are the fields. -/
def Obligations.WordsDecodeByMaskAndMatch : Prop :=
  ∀ w : ReqWord,
    ((∃ i, decode w = .ok i) ↔ ∃ o ∈ Opcode.all, w &&& o.mask = o.matchWord) ∧
    (∀ o ∈ Opcode.all, w &&& o.mask = o.matchWord →
      decode w = .ok (o.withFields (w.extractLsb' 8 16) (w.extractLsb' 0 8)) ∧
      ∀ p ∈ Opcode.all, w &&& p.mask = p.matchWord → p = o)

/-- Decoding an encoded well-formed request gives it back, for all 17 requests and every operand value. -/
def Obligations.DecodeOfEncodeIsTheRequest : Prop :=
  ∀ i : Instr, i.wellFormed = true → decode (encode i) = .ok i

/-- A word that decodes is the encoding of what it decodes to, which is well-formed: no two words are one request. -/
def Obligations.DecodedWordIsItsEncoding : Prop :=
  ∀ (w : ReqWord) (i : Instr), decode w = .ok i → i.wellFormed = true ∧ encode i = w

/-! ## The step -/

/-- R19, R41: a step takes the oldest event; a word that decodes runs as its request does, on the state without that event.
The model's own choices: the list of events (log 2), `withFetchWord` (log 4), and the last two clauses (log 15): every
term, the ill-formed `cfgw` too, does what its word does, which for that one is IllegalRequest. -/
def Obligations.StepRunsTheDecodedRequest : Prop :=
  (∀ (s : State) (w : ReqWord) (i : Instr) (rest : List PortEvent), s.inputs = .request w :: rest → decode w = .ok i →
    step s = exec i { s with inputs := rest }) ∧
  (∀ (s : State) (nbits n : Nat) (i : Instr), decodeTableWord nbits n = some i → step (s.withFetchWord nbits n) = exec i s) ∧
  (∀ (i : Instr) (s : State), runRequest (encode i) s = exec i s) ∧
  (∀ (b : Byte) (s : State), b &&& 0xFE#8 ≠ 0#8 → exec (.cfgw b) s =
    .next { s with status := s.status ||| 0x0004#16, responses := s.responses ++ [0x03000000#32] })

/-- R160, last sentence, and log 4: with no event pending a step changes nothing. -/
def Obligations.IdleStepChangesNothing : Prop :=
  ∀ s : State, s.inputs = [] → step s = .next s

/-- R55: an illegal word changes only `STATUS.F_ILLEGAL` and answers code 3, val 0; each of its four kinds is illegal. -/
def Obligations.IllegalWordRaisesIllegalRequest : Prop :=
  (∀ (s : State) (w : ReqWord) (rest : List PortEvent), s.inputs = .request w :: rest → IllegalWord w → step s =
    .next { s with inputs := rest, status := s.status ||| 0x0004#16, responses := s.responses ++ [0x03000000#32] }) ∧
  (∀ w : ReqWord, (∀ o ∈ Opcode.all, o.number ≠ w.extractLsb' 24 8) → IllegalWord w) ∧
  ((List.range 256).filter (fun n => Opcode.all.all (fun o => o.number.toNat != n))).length = 239 ∧
  (∀ (w : ReqWord) (o : Opcode), w.extractLsb' 24 8 = o.number →
    (w.extractLsb' 0 8 ≠ 0#8 → o.format = .N ∨ o.format = .A → IllegalWord w) ∧
    (w.extractLsb' 8 16 ≠ 0#16 → o.format = .N ∨ o.format = .B ∨ o.format = .C → IllegalWord w) ∧
    (w.extractLsb' 1 7 ≠ 0#7 → o = .cfgw → IllegalWord w)) ∧
  IllegalWord 0x00000000#32 ∧ IllegalWord 0xFFFFFFFF#32

/-! ## Errors -/

/-- R143: what an error records and what it leaves alone, for every request word that ends in one. -/
def Obligations.ErrorsArePrecise : Prop :=
  ∀ (w : ReqWord) (s t : State) (r : RspWord), runRequest w s = .next t → t.responses = s.responses ++ [r] →
    r.extractLsb' 24 8 ≠ 0#8 →
    (decode w ≠ .ok .dec →
      t = { s with status := s.status ||| (1#16 <<< ((r.extractLsb' 24 8).toNat - 1)), responses := s.responses ++ [r] } ∧
      r = (r.extractLsb' 24 8).setWidth 32 <<< 24) ∧
    (decode w = .ok .dec →
      t = { s with raw := [], rawLen := 0#16, status := s.status ||| (1#16 <<< ((r.extractLsb' 24 8).toNat - 1)),
                   responses := s.responses ++ [r] } ∧
      r = (r.extractLsb' 24 8).setWidth 32 <<< 24 ||| (r.extractLsb' 0 16).setWidth 32)

/-- R140, R141: each error code is answered exactly when its cause holds, and the `val` it carries. -/
def Obligations.ErrorsExactlyWhenCaused : Prop :=
  ∀ (w : ReqWord) (s t : State) (r : RspWord), s.Inv → runRequest w s = .next t → t.responses = s.responses ++ [r] →
    (r.extractLsb' 24 8 = 1#8 ↔ decode w = .ok .dec ∧ s.wireLen.toNat % 3 ≠ 0) ∧
    (r.extractLsb' 24 8 = 2#8 ↔ decode w = .ok .dec ∧ s.wireLen.toNat % 3 = 0 ∧
      ∃ k, k < s.wireLen.toNat / 3 ∧ ¬ s.WireWordValid k) ∧
    (r.extractLsb' 24 8 = 3#8 ↔ IllegalWord w) ∧
    (r.extractLsb' 24 8 = 4#8 ↔
      (∃ a : Word, decode w = .ok (.wget a) ∧ s.rawLen.toNat ≤ a.toNat) ∨
      (∃ a : Word, decode w = .ok (.bget a) ∧ s.wireLen.toNat ≤ a.toNat)) ∧
    (r.extractLsb' 24 8 = 5#8 ↔
      (∃ a : Word, decode w = .ok (.wpush a) ∧ s.rawLen.toNat = s.nw.val) ∨
      (∃ b : Byte, decode w = .ok (.bpush b) ∧ s.wireLen.toNat = 3 * s.nw.val) ∨
      (∃ a : Word, decode w = .ok (.frame a) ∧ s.rawLen.toNat = s.nw.val)) ∧
    (r.extractLsb' 24 8).toNat ≤ 5 ∧ r.extractLsb' 16 8 = 0#8 ∧
    (r.extractLsb' 24 8 ≠ 0#8 → r.extractLsb' 24 8 ≠ 2#8 → r.extractLsb' 0 16 = 0#16) ∧
    (r.extractLsb' 24 8 = 2#8 → ¬ s.WireWordValid (r.extractLsb' 0 16).toNat ∧
      ∀ j, j < (r.extractLsb' 0 16).toNat → s.WireWordValid j)

/-- R16: the sticky law over every request word, what reset leaves, and that STATUS alters no request: with another STATUS
every request but `STAT` answers the same response and leaves the same state but for STATUS; `STAT` runs the same way too,
and reads the other value. -/
def Obligations.StatusIsSticky : Prop :=
  (∀ (w : ReqWord) (s t : State) (r : RspWord), runRequest w s = .next t → t.responses = s.responses ++ [r] →
    (r.extractLsb' 24 8 ≠ 0#8 → t.status = s.status ||| (1#16 <<< ((r.extractLsb' 24 8).toNat - 1))) ∧
    (r.extractLsb' 24 8 = 0#8 → decode w ≠ .ok .eclr → t.status = s.status) ∧
    (decode w = .ok .eclr → t.status = 0#16)) ∧
  (∀ s : State, (assertReset s).status = 0#16) ∧
  (∀ (w : ReqWord) (s t : State) (x : Word), decode w ≠ .ok .stat → runRequest w s = .next t →
    ∃ y, runRequest w { s with status := x } = .next { t with status := y }) ∧
  (∀ (s : State) (x : Word), ∃ t u r q, exec .stat s = .next t ∧ exec .stat { s with status := x } = .next u ∧
    t = { s with responses := s.responses ++ [r] } ∧ u = { s with status := x, responses := s.responses ++ [q] })

/-- R162: after a `DEC` that failed every `WGET` is a `RangeError`. -/
def Obligations.FailedDecodeYieldsNoWord : Prop :=
  ∀ (s t : State) (r : RspWord) (a : Word), exec .dec s = .next t → t.responses = s.responses ++ [r] →
    r.extractLsb' 24 8 ≠ 0#8 →
    t.rawLen = 0#16 ∧
    exec (.wget a) t =
      .next { t with status := t.status ||| 0x0008#16, responses := t.responses ++ [0x04000000#32] }

/-! ## Whole-machine rules -/

/-- R23, the write columns of the access table: only the listed requests write each of the six items. STATUS is written by
`ECLR`, and by any request that ends in error, which sets the code's bit. -/
def Obligations.OnlyListedRequestsWrite : Prop :=
  ∀ (i : Instr) (s t : State), exec i s = .next t →
    t.nw = s.nw ∧ t.inputs = s.inputs ∧
    (i ≠ .wclr → (∀ a, i ≠ .wpush a) → i ≠ .dec → t.raw = s.raw ∧ t.rawLen = s.rawLen) ∧
    (i ≠ .bclr → (∀ b, i ≠ .bpush b) → i ≠ .enc → (∀ a, i ≠ .frame a) → t.wire = s.wire ∧ t.wireLen = s.wireLen) ∧
    ((∀ b, i ≠ .cfgw b) → t.cfg = s.cfg) ∧
    (∃ r, t.responses = s.responses ++ [r] ∧
      (r.extractLsb' 24 8 = 0#8 → i ≠ .eclr → t.status = s.status) ∧
      (i = .eclr → r.extractLsb' 24 8 = 0#8 ∧ t.status = 0#16) ∧
      (r.extractLsb' 24 8 ≠ 0#8 → t.status = s.status ||| (1#16 <<< ((r.extractLsb' 24 8).toNat - 1))))

/-- R17: `CMDCRC` is read only by `FRAME` (and by `CFGR`, which reads the register): every other request but `CFGW` does the
same whatever CFG holds, and leaves CFG as it is. -/
def Obligations.ConfigurationOnlyReachesFrame : Prop :=
  ∀ (i : Instr) (s t : State) (c : Byte), (∀ a, i ≠ .frame a) → i ≠ .cfgr → (∀ b, i ≠ .cfgw b) → exec i s = .next t →
    exec i { s with cfg := c } = .next { t with cfg := c }

/-- R39: the eight reads change nothing but the response when they succeed, and are idempotent. -/
def Obligations.ReadsHaveNoSideEffect : Prop :=
  ∀ (i : Instr) (s t : State) (r : RspWord),
    ((∃ a, i = .bget a) ∨ (∃ a, i = .wget a) ∨ i = .wlen ∨ i = .blen ∨ i = .stat ∨ i = .cfgr ∨ (∃ a, i = .crc8 a) ∨
      (∃ a b, i = .crc8v a b)) →
    exec i s = .next t → t.responses = s.responses ++ [r] → r.extractLsb' 24 8 = 0#8 →
    t = { s with responses := s.responses ++ [r] } ∧
    exec i t = .next { t with responses := t.responses ++ [r] }

/-! ## Memory (R33, R34) -/

/-- R34: `MemWrite` of 1, 2 and 3 bytes stores most significant byte first, leaves every other byte of WIRE and WIRELEN alone. -/
def Obligations.MemWriteIsBigEndian : Prop :=
  ∀ (s : State) (addr : Nat) (v1 : BitVec 8) (v2 : BitVec 16) (v3 : BitVec 24),
    (∀ i, Cells.read (s.memWrite1 addr v1).wire i = if i = addr then some v1 else Cells.read s.wire i) ∧
    (∀ i, Cells.read (s.memWrite2 addr v2).wire i =
      if i = addr then some (v2.extractLsb' 8 8) else if i = addr + 1 then some (v2.extractLsb' 0 8)
      else Cells.read s.wire i) ∧
    (∀ i, Cells.read (s.memWrite3 addr v3).wire i =
      if i = addr then some (v3.extractLsb' 16 8) else if i = addr + 1 then some (v3.extractLsb' 8 8)
      else if i = addr + 2 then some (v3.extractLsb' 0 8) else Cells.read s.wire i) ∧
    (s.memWrite1 addr v1) = { s with wire := (s.memWrite1 addr v1).wire } ∧
    (s.memWrite2 addr v2) = { s with wire := (s.memWrite2 addr v2).wire } ∧
    (s.memWrite3 addr v3) = { s with wire := (s.memWrite3 addr v3).wire }

/-- R33: `MemRead` of readable bytes puts them side by side, first byte most significant (the fields of the number read
are the bytes); and within the valid region it returns what `MemWrite` of the same width stored (R34). -/
def Obligations.MemReadIsBigEndian : Prop :=
  (∀ (s : State) (addr : Nat) (x y z : Byte), s.wireCell addr = some x →
    s.memRead1 addr = some x ∧
    (s.wireCell (addr + 1) = some y →
      (∃ v, s.memRead2 addr = some v ∧ v.extractLsb' 8 8 = x ∧ v.extractLsb' 0 8 = y) ∧
      (s.wireCell (addr + 2) = some z →
        ∃ v, s.memRead3 addr = some v ∧ v.extractLsb' 16 8 = x ∧ v.extractLsb' 8 8 = y ∧ v.extractLsb' 0 8 = z))) ∧
  (∀ (s : State) (addr : Nat) (v1 : BitVec 8) (v2 : BitVec 16) (v3 : BitVec 24),
    (addr + 1 ≤ s.wireLen.toNat → (s.memWrite1 addr v1).memRead1 addr = some v1) ∧
    (addr + 2 ≤ s.wireLen.toNat → (s.memWrite2 addr v2).memRead2 addr = some v2) ∧
    (addr + 3 ≤ s.wireLen.toNat → (s.memWrite3 addr v3).memRead3 addr = some v3))

/-! ## The loops of R83, R84, R93 -/

/-- R83: the loop of `ENC`, three bytes at a time with `MemWrite`, is the meaning of `ENC`. -/
def Obligations.EncLoopIsEnc : Prop := ∀ s : State, s.Inv → encLoop s = exec .enc s

/-- R84: the loop of `FRAME` is the meaning of `FRAME`. -/
def Obligations.FrameLoopIsFrame : Prop := ∀ (s : State) (cmd : Word), s.Inv → frameLoop cmd s = exec (.frame cmd) s

/-- R93: the two loops of `DEC`, check then extract, are the meaning of `DEC`. -/
def Obligations.DecLoopsAreDec : Prop := ∀ s : State, s.Inv → decLoop s = exec .dec s

/-! ## Reset, the invariant and runs -/

/-- R22: the state after reset, for every capacity; no cell is readable. -/
def Obligations.ResetState : Prop :=
  ∀ nw : Config.Capacity,
    (State.resetWith nw).rawLen = 0#16 ∧ (State.resetWith nw).wireLen = 0#16 ∧ (State.resetWith nw).status = 0x0000#16 ∧
    (State.resetWith nw).cfg = 0x00#8 ∧ (State.resetWith nw).cmdCrc = false ∧
    (∀ i, (State.resetWith nw).rawCell i = none) ∧ (∀ i, (State.resetWith nw).wireCell i = none) ∧
    (∃ nw0, State.reset = State.resetWith nw0)

/-- R160: an asserted reset gives the state of R22 whatever came before, and drops a request in flight without a response.
That NW, the events to come and the responses already produced stay is the model's choice (log 13). -/
def Obligations.ResetInputGivesResetState : Prop :=
  ∀ (s : State) (inFlight : Option ReqWord) (rest : List PortEvent), s.inputs = .reset inFlight :: rest → step s =
    .next { nw := s.nw, raw := [], rawLen := 0#16, wire := [], wireLen := 0#16, status := 0#16, cfg := 0#8,
            inputs := rest, responses := s.responses }

/-- R21 at reset, for every capacity. -/
def Obligations.InvariantHoldsAtReset : Prop := State.reset.Inv ∧ ∀ nw : Config.Capacity, (State.resetWith nw).Inv

/-- R21: from every state that meets the invariant, every step that goes on gives a state that meets it. -/
def Obligations.StepKeepsInvariant : Prop := ∀ s t : State, s.Inv → step s = .next t → t.Inv

/-- R146: under the invariant every request word has one successor state and exactly one response. -/
def Obligations.EveryRequestIsAnswered : Prop :=
  ∀ (s : State) (w : ReqWord) (rest : List PortEvent), s.Inv → s.inputs = .request w :: rest →
    ∃ t r, step s = .next t ∧ t.inputs = rest ∧ t.responses = s.responses ++ [r]

/-- R146, R171: no run stops: from every state that meets the invariant, for every list of events, any number of steps
gives a next state, which meets the invariant; after as many steps as there are events the run has ended (R172), with at
most one response an event. -/
def Obligations.RunsNeverStop : Prop :=
  ∀ (s : State) (k : Nat), s.Inv → ∃ t, Host.Core.run core k s = .next t ∧ t.Inv ∧ t.nw = s.nw ∧
    (s.inputs.length ≤ k → t.inputs = []) ∧ t.responses.length ≤ s.responses.length + k

/-! ## The codec across the two buffers -/

/-- R92 (a) at the machine: `ENC` then `DEC` gives the raw buffer back, whatever it held. -/
def Obligations.EncThenDecRestoresRaw : Prop :=
  ∀ s : State, s.Inv → ∃ t u, exec .enc s = .next t ∧ exec .dec t = .next u ∧
    u.raw = s.raw ∧ u.rawLen = s.rawLen ∧ u.wire = t.wire ∧ u.wireLen = t.wireLen ∧ u.status = s.status ∧ u.cfg = s.cfg

/-- R60: `DEC` of what `FRAME` built: a framing error with `CMDCRC == 0`, the command code as raw word 0 with `CMDCRC == 1`. -/
def Obligations.DecOfOutboundFrame : Prop :=
  ∀ (s : State) (cmd : Word) (ws : List Word), s.Inv → s.RawIs ws → s.rawLen.toNat < s.nw.val →
    ∃ t u, exec (.frame cmd) s = .next t ∧ exec .dec t = .next u ∧
      (s.cfg.getLsbD 0 = false → u = { t with raw := [], rawLen := 0#16, status := t.status ||| 0x0001#16,
                                              responses := t.responses ++ [0x01000000#32] }) ∧
      (s.cfg.getLsbD 0 = true → u.RawIs (cmd :: ws) ∧ u.status = t.status ∧ u.wire = t.wire)

/-- R172: two states with the same observation, the same capacity and the same events to come are the same state. -/
def Obligations.ObservationDeterminesState : Prop :=
  ∀ s t : State, s.Inv → t.Inv → s.nw = t.nw → s.inputs = t.inputs → s.observe = t.observe → s = t

/-! ## The host procedures (R122, R123) -/

/-- R122 and R123, for every transport and every operation, from every state with the invariant. `performCommand` hands over
exactly the outbound frame, or passes on the `OverflowError` of an argument that fills RAW, or the transport's failure.
`performCommandAndRead` pushes the first `expectedWords * 3` bytes read and returns the words they decode to; a read that
fails is a `TransportError`; a `DEC` that fails is passed on with its code and is the last request presented. What follows
a `FRAME` without room, and a read of another length, is the model's (log 19). -/
def Obligations.HostProceduresUseTheBlock : Prop :=
  ∀ (tr : Transport) (op : Operation) (s : State) (frame : List Byte), s.Inv →
    frame = frameBytes op.cmd op.arg.toList (s.cfg.getLsbD 0) →
    (op.arg.toList.length = s.nw.val →
      ∃ t, performCommand tr op.cmd op.arg s = .failed (.code 0x05#8) t ∧
        performCommandAndRead tr op s = .failed (.code 0x05#8) t ∧ t.status = s.status ||| 0x0010#16) ∧
    (op.arg.toList.length < s.nw.val → tr.write frame = false →
      ∃ t, performCommand tr op.cmd op.arg s = .failed .transport t ∧
        performCommandAndRead tr op s = .failed .transport t ∧ t.status = s.status) ∧
    (op.arg.toList.length < s.nw.val → tr.write frame = true →
      (∃ t, performCommand tr op.cmd op.arg s = .done frame t ∧ t.RawIs op.arg.toList ∧ t.WireIs frame ∧
        t.status = s.status ∧ t.cfg = s.cfg ∧ t.inputs = s.inputs) ∧
      (tr.read (op.expectedWords * 3) = none →
        ∃ t, performCommandAndRead tr op s = .failed .transport t ∧ t.WireIs frame ∧ t.status = s.status) ∧
      (op.expectedWords ≤ s.nw.val → ∀ bs pushed, tr.read (op.expectedWords * 3) = some bs →
        pushed = bs.take (op.expectedWords * 3) →
        (decodeBytes pushed = .error .framing → ∃ t, performCommandAndRead tr op s = .failed (.code 0x01#8) t ∧
          t.rawLen = 0#16 ∧ t.WireIs pushed ∧ t.status = s.status ||| 0x0001#16 ∧
          t.responses.getLast? = some 0x01000000#32) ∧
        (∀ k, decodeBytes pushed = .error (.checksum k) → ∃ t, performCommandAndRead tr op s = .failed (.code 0x02#8) t ∧
          t.rawLen = 0#16 ∧ t.WireIs pushed ∧ t.status = s.status ||| 0x0002#16 ∧
          t.responses.getLast? = some (0x02000000#32 ||| (BitVec.ofNat 16 k).setWidth 32)) ∧
        (∀ ws, decodeBytes pushed = .ok ws →
          (ws.length = op.expectedWords → ∃ t, performCommandAndRead tr op s = .done ws t ∧ t.RawIs ws ∧
            t.WireIs pushed ∧ t.status = s.status ∧ t.cfg = s.cfg ∧ t.inputs = s.inputs) ∧
          (ws.length ≠ op.expectedWords → ∃ t,
            performCommandAndRead tr op s = .failed (.wrongCount (BitVec.ofNat 16 ws.length)) t ∧ t.RawIs ws ∧
            t.status = s.status) ∧
          (bs.length = op.expectedWords * 3 → ws.length = op.expectedWords))))
end

