-- ==== Sys2Proof/Laws/State.lean ====
section
/-! SUPPORT. One lemma per field per update of State, each true by rfl, so that no later proof unfolds a record update. -/

namespace Sys2Proof.Machine

variable (s : State)

/-! ### writeRaw -/

@[simp] theorem State.writeRaw_nw (i : Nat) (ws : List Word) : (s.writeRaw i ws).nw = s.nw := rfl
@[simp] theorem State.writeRaw_raw (i : Nat) (ws : List Word) : (s.writeRaw i ws).raw = Cells.writeFrom s.raw i ws := rfl
@[simp] theorem State.writeRaw_rawLen (i : Nat) (ws : List Word) : (s.writeRaw i ws).rawLen = s.rawLen := rfl
@[simp] theorem State.writeRaw_wire (i : Nat) (ws : List Word) : (s.writeRaw i ws).wire = s.wire := rfl
@[simp] theorem State.writeRaw_wireLen (i : Nat) (ws : List Word) : (s.writeRaw i ws).wireLen = s.wireLen := rfl
@[simp] theorem State.writeRaw_status (i : Nat) (ws : List Word) : (s.writeRaw i ws).status = s.status := rfl
@[simp] theorem State.writeRaw_cfg (i : Nat) (ws : List Word) : (s.writeRaw i ws).cfg = s.cfg := rfl
@[simp] theorem State.writeRaw_inputs (i : Nat) (ws : List Word) : (s.writeRaw i ws).inputs = s.inputs := rfl
@[simp] theorem State.writeRaw_responses (i : Nat) (ws : List Word) : (s.writeRaw i ws).responses = s.responses := rfl

/-! ### setRawLen -/

@[simp] theorem State.setRawLen_nw (n : Word) : (s.setRawLen n).nw = s.nw := rfl
@[simp] theorem State.setRawLen_raw (n : Word) : (s.setRawLen n).raw = Cells.below s.raw n.toNat := rfl
@[simp] theorem State.setRawLen_rawLen (n : Word) : (s.setRawLen n).rawLen = n := rfl
@[simp] theorem State.setRawLen_wire (n : Word) : (s.setRawLen n).wire = s.wire := rfl
@[simp] theorem State.setRawLen_wireLen (n : Word) : (s.setRawLen n).wireLen = s.wireLen := rfl
@[simp] theorem State.setRawLen_status (n : Word) : (s.setRawLen n).status = s.status := rfl
@[simp] theorem State.setRawLen_cfg (n : Word) : (s.setRawLen n).cfg = s.cfg := rfl
@[simp] theorem State.setRawLen_inputs (n : Word) : (s.setRawLen n).inputs = s.inputs := rfl
@[simp] theorem State.setRawLen_responses (n : Word) : (s.setRawLen n).responses = s.responses := rfl

/-! ### writeWire -/

@[simp] theorem State.writeWire_nw (i : Nat) (bs : List Byte) : (s.writeWire i bs).nw = s.nw := rfl
@[simp] theorem State.writeWire_raw (i : Nat) (bs : List Byte) : (s.writeWire i bs).raw = s.raw := rfl
@[simp] theorem State.writeWire_rawLen (i : Nat) (bs : List Byte) : (s.writeWire i bs).rawLen = s.rawLen := rfl
@[simp] theorem State.writeWire_wire (i : Nat) (bs : List Byte) : (s.writeWire i bs).wire = Cells.writeFrom s.wire i bs := rfl
@[simp] theorem State.writeWire_wireLen (i : Nat) (bs : List Byte) : (s.writeWire i bs).wireLen = s.wireLen := rfl
@[simp] theorem State.writeWire_status (i : Nat) (bs : List Byte) : (s.writeWire i bs).status = s.status := rfl
@[simp] theorem State.writeWire_cfg (i : Nat) (bs : List Byte) : (s.writeWire i bs).cfg = s.cfg := rfl
@[simp] theorem State.writeWire_inputs (i : Nat) (bs : List Byte) : (s.writeWire i bs).inputs = s.inputs := rfl
@[simp] theorem State.writeWire_responses (i : Nat) (bs : List Byte) : (s.writeWire i bs).responses = s.responses := rfl

/-! ### setWireLen -/

@[simp] theorem State.setWireLen_nw (n : Word) : (s.setWireLen n).nw = s.nw := rfl
@[simp] theorem State.setWireLen_raw (n : Word) : (s.setWireLen n).raw = s.raw := rfl
@[simp] theorem State.setWireLen_rawLen (n : Word) : (s.setWireLen n).rawLen = s.rawLen := rfl
@[simp] theorem State.setWireLen_wire (n : Word) : (s.setWireLen n).wire = Cells.below s.wire n.toNat := rfl
@[simp] theorem State.setWireLen_wireLen (n : Word) : (s.setWireLen n).wireLen = n := rfl
@[simp] theorem State.setWireLen_status (n : Word) : (s.setWireLen n).status = s.status := rfl
@[simp] theorem State.setWireLen_cfg (n : Word) : (s.setWireLen n).cfg = s.cfg := rfl
@[simp] theorem State.setWireLen_inputs (n : Word) : (s.setWireLen n).inputs = s.inputs := rfl
@[simp] theorem State.setWireLen_responses (n : Word) : (s.setWireLen n).responses = s.responses := rfl

/-! ### memWrite1 -/

@[simp] theorem State.memWrite1_nw (addr : Nat) (v : BitVec 8) : (s.memWrite1 addr v).nw = s.nw := rfl
@[simp] theorem State.memWrite1_raw (addr : Nat) (v : BitVec 8) : (s.memWrite1 addr v).raw = s.raw := rfl
@[simp] theorem State.memWrite1_rawLen (addr : Nat) (v : BitVec 8) : (s.memWrite1 addr v).rawLen = s.rawLen := rfl
@[simp] theorem State.memWrite1_wire (addr : Nat) (v : BitVec 8) : (s.memWrite1 addr v).wire = Cells.writeFrom s.wire addr [v] := rfl
@[simp] theorem State.memWrite1_wireLen (addr : Nat) (v : BitVec 8) : (s.memWrite1 addr v).wireLen = s.wireLen := rfl
@[simp] theorem State.memWrite1_status (addr : Nat) (v : BitVec 8) : (s.memWrite1 addr v).status = s.status := rfl
@[simp] theorem State.memWrite1_cfg (addr : Nat) (v : BitVec 8) : (s.memWrite1 addr v).cfg = s.cfg := rfl
@[simp] theorem State.memWrite1_inputs (addr : Nat) (v : BitVec 8) : (s.memWrite1 addr v).inputs = s.inputs := rfl
@[simp] theorem State.memWrite1_responses (addr : Nat) (v : BitVec 8) : (s.memWrite1 addr v).responses = s.responses := rfl

/-! ### memWrite2 -/

@[simp] theorem State.memWrite2_nw (addr : Nat) (v : BitVec 16) : (s.memWrite2 addr v).nw = s.nw := rfl
@[simp] theorem State.memWrite2_raw (addr : Nat) (v : BitVec 16) : (s.memWrite2 addr v).raw = s.raw := rfl
@[simp] theorem State.memWrite2_rawLen (addr : Nat) (v : BitVec 16) : (s.memWrite2 addr v).rawLen = s.rawLen := rfl
@[simp] theorem State.memWrite2_wire (addr : Nat) (v : BitVec 16) : (s.memWrite2 addr v).wire = Cells.writeFrom s.wire addr [v.extractLsb' 8 8, v.extractLsb' 0 8] := rfl
@[simp] theorem State.memWrite2_wireLen (addr : Nat) (v : BitVec 16) : (s.memWrite2 addr v).wireLen = s.wireLen := rfl
@[simp] theorem State.memWrite2_status (addr : Nat) (v : BitVec 16) : (s.memWrite2 addr v).status = s.status := rfl
@[simp] theorem State.memWrite2_cfg (addr : Nat) (v : BitVec 16) : (s.memWrite2 addr v).cfg = s.cfg := rfl
@[simp] theorem State.memWrite2_inputs (addr : Nat) (v : BitVec 16) : (s.memWrite2 addr v).inputs = s.inputs := rfl
@[simp] theorem State.memWrite2_responses (addr : Nat) (v : BitVec 16) : (s.memWrite2 addr v).responses = s.responses := rfl

/-! ### memWrite3 -/

@[simp] theorem State.memWrite3_nw (addr : Nat) (v : BitVec 24) : (s.memWrite3 addr v).nw = s.nw := rfl
@[simp] theorem State.memWrite3_raw (addr : Nat) (v : BitVec 24) : (s.memWrite3 addr v).raw = s.raw := rfl
@[simp] theorem State.memWrite3_rawLen (addr : Nat) (v : BitVec 24) : (s.memWrite3 addr v).rawLen = s.rawLen := rfl
@[simp] theorem State.memWrite3_wire (addr : Nat) (v : BitVec 24) : (s.memWrite3 addr v).wire = Cells.writeFrom s.wire addr [v.extractLsb' 16 8, v.extractLsb' 8 8, v.extractLsb' 0 8] := rfl
@[simp] theorem State.memWrite3_wireLen (addr : Nat) (v : BitVec 24) : (s.memWrite3 addr v).wireLen = s.wireLen := rfl
@[simp] theorem State.memWrite3_status (addr : Nat) (v : BitVec 24) : (s.memWrite3 addr v).status = s.status := rfl
@[simp] theorem State.memWrite3_cfg (addr : Nat) (v : BitVec 24) : (s.memWrite3 addr v).cfg = s.cfg := rfl
@[simp] theorem State.memWrite3_inputs (addr : Nat) (v : BitVec 24) : (s.memWrite3 addr v).inputs = s.inputs := rfl
@[simp] theorem State.memWrite3_responses (addr : Nat) (v : BitVec 24) : (s.memWrite3 addr v).responses = s.responses := rfl

/-! ### recordError -/

@[simp] theorem State.recordError_nw (e : ErrorKind) : (s.recordError e).nw = s.nw := rfl
@[simp] theorem State.recordError_raw (e : ErrorKind) : (s.recordError e).raw = s.raw := rfl
@[simp] theorem State.recordError_rawLen (e : ErrorKind) : (s.recordError e).rawLen = s.rawLen := rfl
@[simp] theorem State.recordError_wire (e : ErrorKind) : (s.recordError e).wire = s.wire := rfl
@[simp] theorem State.recordError_wireLen (e : ErrorKind) : (s.recordError e).wireLen = s.wireLen := rfl
@[simp] theorem State.recordError_status (e : ErrorKind) : (s.recordError e).status = s.status ||| e.statusBit := rfl
@[simp] theorem State.recordError_cfg (e : ErrorKind) : (s.recordError e).cfg = s.cfg := rfl
@[simp] theorem State.recordError_inputs (e : ErrorKind) : (s.recordError e).inputs = s.inputs := rfl
@[simp] theorem State.recordError_responses (e : ErrorKind) : (s.recordError e).responses = s.responses := rfl

/-! ### setStatus -/

@[simp] theorem State.setStatus_nw (v : Word) : (s.setStatus v).nw = s.nw := rfl
@[simp] theorem State.setStatus_raw (v : Word) : (s.setStatus v).raw = s.raw := rfl
@[simp] theorem State.setStatus_rawLen (v : Word) : (s.setStatus v).rawLen = s.rawLen := rfl
@[simp] theorem State.setStatus_wire (v : Word) : (s.setStatus v).wire = s.wire := rfl
@[simp] theorem State.setStatus_wireLen (v : Word) : (s.setStatus v).wireLen = s.wireLen := rfl
@[simp] theorem State.setStatus_status (v : Word) : (s.setStatus v).status = v := rfl
@[simp] theorem State.setStatus_cfg (v : Word) : (s.setStatus v).cfg = s.cfg := rfl
@[simp] theorem State.setStatus_inputs (v : Word) : (s.setStatus v).inputs = s.inputs := rfl
@[simp] theorem State.setStatus_responses (v : Word) : (s.setStatus v).responses = s.responses := rfl

/-! ### setCfg -/

@[simp] theorem State.setCfg_nw (v : Byte) : (s.setCfg v).nw = s.nw := rfl
@[simp] theorem State.setCfg_raw (v : Byte) : (s.setCfg v).raw = s.raw := rfl
@[simp] theorem State.setCfg_rawLen (v : Byte) : (s.setCfg v).rawLen = s.rawLen := rfl
@[simp] theorem State.setCfg_wire (v : Byte) : (s.setCfg v).wire = s.wire := rfl
@[simp] theorem State.setCfg_wireLen (v : Byte) : (s.setCfg v).wireLen = s.wireLen := rfl
@[simp] theorem State.setCfg_status (v : Byte) : (s.setCfg v).status = s.status := rfl
@[simp] theorem State.setCfg_cfg (v : Byte) : (s.setCfg v).cfg = v := rfl
@[simp] theorem State.setCfg_inputs (v : Byte) : (s.setCfg v).inputs = s.inputs := rfl
@[simp] theorem State.setCfg_responses (v : Byte) : (s.setCfg v).responses = s.responses := rfl

/-! ### respond -/

@[simp] theorem State.respond_nw (code : Byte) (val : Word) : (s.respond code val).nw = s.nw := rfl
@[simp] theorem State.respond_raw (code : Byte) (val : Word) : (s.respond code val).raw = s.raw := rfl
@[simp] theorem State.respond_rawLen (code : Byte) (val : Word) : (s.respond code val).rawLen = s.rawLen := rfl
@[simp] theorem State.respond_wire (code : Byte) (val : Word) : (s.respond code val).wire = s.wire := rfl
@[simp] theorem State.respond_wireLen (code : Byte) (val : Word) : (s.respond code val).wireLen = s.wireLen := rfl
@[simp] theorem State.respond_status (code : Byte) (val : Word) : (s.respond code val).status = s.status := rfl
@[simp] theorem State.respond_cfg (code : Byte) (val : Word) : (s.respond code val).cfg = s.cfg := rfl
@[simp] theorem State.respond_inputs (code : Byte) (val : Word) : (s.respond code val).inputs = s.inputs := rfl
@[simp] theorem State.respond_responses (code : Byte) (val : Word) : (s.respond code val).responses = s.responses ++ [rspWord code val] := rfl

/-! ### putFrame -/

@[simp] theorem State.putFrame_nw (bs : List Byte) : (s.putFrame bs).nw = s.nw := rfl
@[simp] theorem State.putFrame_raw (bs : List Byte) : (s.putFrame bs).raw = s.raw := rfl
@[simp] theorem State.putFrame_rawLen (bs : List Byte) : (s.putFrame bs).rawLen = s.rawLen := rfl
@[simp] theorem State.putFrame_wire (bs : List Byte) : (s.putFrame bs).wire = Cells.below (Cells.writeFrom s.wire 0 bs) (natVal bs.length).toNat := rfl
@[simp] theorem State.putFrame_wireLen (bs : List Byte) : (s.putFrame bs).wireLen = natVal bs.length := rfl
@[simp] theorem State.putFrame_status (bs : List Byte) : (s.putFrame bs).status = s.status := rfl
@[simp] theorem State.putFrame_cfg (bs : List Byte) : (s.putFrame bs).cfg = s.cfg := rfl
@[simp] theorem State.putFrame_inputs (bs : List Byte) : (s.putFrame bs).inputs = s.inputs := rfl
@[simp] theorem State.putFrame_responses (bs : List Byte) : (s.putFrame bs).responses = s.responses := rfl

/-! ### putWords -/

@[simp] theorem State.putWords_nw (ws : List Word) : (s.putWords ws).nw = s.nw := rfl
@[simp] theorem State.putWords_raw (ws : List Word) : (s.putWords ws).raw = Cells.below (Cells.writeFrom s.raw 0 ws) (natVal ws.length).toNat := rfl
@[simp] theorem State.putWords_rawLen (ws : List Word) : (s.putWords ws).rawLen = natVal ws.length := rfl
@[simp] theorem State.putWords_wire (ws : List Word) : (s.putWords ws).wire = s.wire := rfl
@[simp] theorem State.putWords_wireLen (ws : List Word) : (s.putWords ws).wireLen = s.wireLen := rfl
@[simp] theorem State.putWords_status (ws : List Word) : (s.putWords ws).status = s.status := rfl
@[simp] theorem State.putWords_cfg (ws : List Word) : (s.putWords ws).cfg = s.cfg := rfl
@[simp] theorem State.putWords_inputs (ws : List Word) : (s.putWords ws).inputs = s.inputs := rfl
@[simp] theorem State.putWords_responses (ws : List Word) : (s.putWords ws).responses = s.responses := rfl

/-! ### assertReset, resetWith -/

@[simp] theorem assertReset_nw : (assertReset s).nw = s.nw := rfl
@[simp] theorem assertReset_raw : (assertReset s).raw = [] := rfl
@[simp] theorem assertReset_rawLen : (assertReset s).rawLen = 0#16 := rfl
@[simp] theorem assertReset_wire : (assertReset s).wire = [] := rfl
@[simp] theorem assertReset_wireLen : (assertReset s).wireLen = 0#16 := rfl
@[simp] theorem assertReset_status : (assertReset s).status = 0#16 := rfl
@[simp] theorem assertReset_cfg : (assertReset s).cfg = 0#8 := rfl
@[simp] theorem assertReset_inputs : (assertReset s).inputs = s.inputs := rfl
@[simp] theorem assertReset_responses : (assertReset s).responses = s.responses := rfl
@[simp] theorem State.resetWith_nw (nw : Config.Capacity) : (State.resetWith nw).nw = nw := rfl
@[simp] theorem State.resetWith_raw (nw : Config.Capacity) : (State.resetWith nw).raw = [] := rfl
@[simp] theorem State.resetWith_rawLen (nw : Config.Capacity) : (State.resetWith nw).rawLen = 0#16 := rfl
@[simp] theorem State.resetWith_wire (nw : Config.Capacity) : (State.resetWith nw).wire = [] := rfl
@[simp] theorem State.resetWith_wireLen (nw : Config.Capacity) : (State.resetWith nw).wireLen = 0#16 := rfl
@[simp] theorem State.resetWith_status (nw : Config.Capacity) : (State.resetWith nw).status = 0#16 := rfl
@[simp] theorem State.resetWith_cfg (nw : Config.Capacity) : (State.resetWith nw).cfg = 0#8 := rfl
@[simp] theorem State.resetWith_inputs (nw : Config.Capacity) : (State.resetWith nw).inputs = [] := rfl
@[simp] theorem State.resetWith_responses (nw : Config.Capacity) : (State.resetWith nw).responses = [] := rfl

/-! ### MemWrite is a write of its bytes (R34) -/

theorem State.memWrite1_eq (addr : Nat) (v : BitVec 8) : s.memWrite1 addr v = s.writeWire addr [v] := rfl

theorem State.memWrite2_eq (addr : Nat) (v : BitVec 16) :
    s.memWrite2 addr v = s.writeWire addr [v.extractLsb' 8 8, v.extractLsb' 0 8] := rfl

theorem State.memWrite3_eq (addr : Nat) (v : BitVec 24) :
    s.memWrite3 addr v = s.writeWire addr [v.extractLsb' 16 8, v.extractLsb' 8 8, v.extractLsb' 0 8] := rfl

end Sys2Proof.Machine
end

