-- ==== Sys2Proof/Laws/Cells.lean ====
section
/-! SUPPORT. What reading a cell gives after each cell operation, that every operation keeps the canonical form, and that canonical cells are determined by what they read as. -/

namespace Sys2Proof.Machine

variable {α : Type}

/-! ## Reading after writing -/

theorem Cells.read_write (c : Cells α) (i : Nat) (v : α) (j : Nat) :
    Cells.read (Cells.write c i v) j = if j = i then some v else Cells.read c j := by
  induction c with
  | nil => simp [Cells.write, Cells.read, eq_comm]
  | cons p rest ih =>
    obtain ⟨k, x⟩ := p
    rcases lt_trichotomy i k with h | h | h
    · simp only [Cells.write, h, if_true, Cells.read]
      by_cases hj : j = i
      · simp [hj]
      · simp [hj, Ne.symm hj]
    · subst h
      simp only [Cells.write, lt_irrefl, if_false, if_true, Cells.read]
      by_cases hj : j = i
      · simp [hj]
      · simp [hj, Ne.symm hj]
    · have h1 : ¬ i < k := by omega
      have h2 : i ≠ k := by omega
      simp only [Cells.write, h1, h2, if_false, Cells.read, ih]
      by_cases hj : k = j
      · have : j ≠ i := by omega
        simp [hj, this]
      · simp [hj]

theorem Cells.read_below (c : Cells α) (n j : Nat) :
    Cells.read (Cells.below c n) j = if j < n then Cells.read c j else none := by
  induction c with
  | nil => simp [Cells.below, Cells.read]
  | cons p rest ih =>
    obtain ⟨k, x⟩ := p
    have hb : Cells.below ((k, x) :: rest) n =
        if k < n then (k, x) :: Cells.below rest n else Cells.below rest n := by
      simp [Cells.below, List.filter_cons]
    rw [hb]
    by_cases hk : k < n
    · simp only [hk, if_true, Cells.read, ih]
      by_cases hj : k = j
      · subst hj; simp [hk]
      · simp [hj]
    · simp only [hk, if_false, ih, Cells.read]
      by_cases hj : k = j
      · subst hj; simp [hk]
      · simp [hj]

theorem Cells.read_writeFrom (c : Cells α) (i : Nat) (vs : List α) (j : Nat) :
    Cells.read (Cells.writeFrom c i vs) j =
      if i ≤ j ∧ j < i + vs.length then vs[j - i]? else Cells.read c j := by
  induction vs generalizing c i with
  | nil =>
    simp [Cells.writeFrom]
  | cons v vs ih =>
    rw [Cells.writeFrom, ih, Cells.read_write]
    by_cases hj : j = i
    · subst hj
      simp
    · by_cases h : i + 1 ≤ j ∧ j < i + 1 + vs.length
      · have h2 : i ≤ j ∧ j < i + (v :: vs).length := by simp; omega
        have h3 : j - i = (j - (i + 1)) + 1 := by omega
        simp only [h, h2, and_self, if_true, h3, List.getElem?_cons_succ]
      · have h2 : ¬ (i ≤ j ∧ j < i + (v :: vs).length) := by simp; omega
        simp only [h, h2, if_false, hj]

theorem Cells.writeFrom_append (c : Cells α) (i : Nat) (xs ys : List α) :
    Cells.writeFrom c i (xs ++ ys) = Cells.writeFrom (Cells.writeFrom c i xs) (i + xs.length) ys := by
  induction xs generalizing c i with
  | nil => rfl
  | cons x xs ih =>
    have : i + (x :: xs).length = i + 1 + xs.length := by simp; omega
    rw [List.cons_append, Cells.writeFrom, Cells.writeFrom, ih, this]

/-! ## The canonical form -/

theorem Cells.wf_iff (c : Cells α) : Cells.wf c = true ↔ (c.map Prod.fst).Pairwise (· < ·) := by
  induction c with
  | nil => simp [Cells.wf]
  | cons p rest ih =>
    obtain ⟨i, x⟩ := p
    cases rest with
    | nil => simp [Cells.wf]
    | cons q rest =>
      obtain ⟨j, y⟩ := q
      rw [Cells.wf, Bool.and_eq_true, decide_eq_true_eq, ih]
      simp only [List.map_cons, List.pairwise_cons, List.mem_cons, forall_eq_or_imp]
      constructor
      · rintro ⟨hij, hj, hp⟩
        exact ⟨⟨hij, fun a ha => lt_trans hij (hj a ha)⟩, hj, hp⟩
      · rintro ⟨⟨hij, _⟩, hj, hp⟩
        exact ⟨hij, hj, hp⟩

theorem Cells.mem_keys_write (c : Cells α) (i : Nat) (v : α) (k : Nat)
    (h : k ∈ (Cells.write c i v).map Prod.fst) : k = i ∨ k ∈ c.map Prod.fst := by
  induction c with
  | nil => simpa [Cells.write] using h
  | cons p rest ih =>
    obtain ⟨j, x⟩ := p
    simp only [Cells.write] at h
    split at h
    · simpa using h
    · split at h
      · rcases List.mem_cons.1 h with h | h
        · exact .inl h
        · exact .inr (List.mem_cons_of_mem _ h)
      · rcases List.mem_cons.1 h with h | h
        · exact .inr (h ▸ List.mem_cons_self ..)
        · rcases ih h with h | h
          · exact .inl h
          · exact .inr (List.mem_cons_of_mem _ h)

theorem Cells.wf_write (c : Cells α) (i : Nat) (v : α) (h : Cells.wf c = true) :
    Cells.wf (Cells.write c i v) = true := by
  rw [Cells.wf_iff] at h ⊢
  induction c with
  | nil => simp [Cells.write]
  | cons p rest ih =>
    obtain ⟨k, x⟩ := p
    simp only [List.map_cons, List.pairwise_cons] at h
    obtain ⟨hk, hr⟩ := h
    simp only [Cells.write]
    split
    · rename_i hik
      simp only [List.map_cons, List.pairwise_cons, List.mem_cons, forall_eq_or_imp]
      exact ⟨⟨hik, fun a ha => lt_trans hik (hk a ha)⟩, hk, hr⟩
    · split
      · rename_i hik
        simp only [List.map_cons, List.pairwise_cons]
        exact ⟨fun a ha => hik ▸ hk a ha, hr⟩
      · simp only [List.map_cons, List.pairwise_cons]
        refine ⟨fun a ha => ?_, ih hr⟩
        rcases Cells.mem_keys_write rest i v a ha with h | h
        · omega
        · exact hk a h

theorem Cells.wf_below (c : Cells α) (n : Nat) (h : Cells.wf c = true) :
    Cells.wf (Cells.below c n) = true := by
  rw [Cells.wf_iff] at h ⊢
  exact h.sublist ((List.filter_sublist ..).map Prod.fst)

theorem Cells.wf_writeFrom (c : Cells α) (i : Nat) (vs : List α) (h : Cells.wf c = true) :
    Cells.wf (Cells.writeFrom c i vs) = true := by
  induction vs generalizing c i with
  | nil => exact h
  | cons v vs ih => exact ih _ _ (Cells.wf_write c i v h)

/-- Every operation on the wire space keeps the canonical form. -/
theorem Memory.wf_kept (m : Memory) (h : Memory.wf m = true) (i n : Nat) (b : Byte) (bs : List Byte) :
    Memory.wf (Cells.write m i b) = true ∧ Memory.wf (Cells.below m n) = true ∧
      Memory.wf (Cells.writeFrom m i bs) = true :=
  ⟨Cells.wf_write m i b h, Cells.wf_below m n h, Cells.wf_writeFrom m i bs h⟩

theorem Memory.wf_reset (nw : Config.Capacity) : Memory.wf (State.resetWith nw).wire = true := rfl

/-! ## Canonical cells are what they read as -/

theorem Cells.read_none_of_lt (c : Cells α) (j : Nat) (h : ∀ k ∈ c.map Prod.fst, j < k) :
    Cells.read c j = none := by
  induction c with
  | nil => rfl
  | cons p rest ih =>
    obtain ⟨k, x⟩ := p
    simp only [List.map_cons, List.mem_cons, forall_eq_or_imp] at h
    have : k ≠ j := by omega
    rw [Cells.read, if_neg this, ih h.2]

theorem Cells.ext_read (c d : Cells α) (hc : Cells.wf c = true) (hd : Cells.wf d = true)
    (h : ∀ i, Cells.read c i = Cells.read d i) : c = d := by
  rw [Cells.wf_iff] at hc hd
  induction c generalizing d with
  | nil =>
    cases d with
    | nil => rfl
    | cons q _ => simpa [Cells.read] using h q.1
  | cons p rest ih =>
    obtain ⟨i, x⟩ := p
    cases d with
    | nil => simpa [Cells.read] using h i
    | cons q rest' =>
      obtain ⟨j, y⟩ := q
      simp only [List.map_cons, List.pairwise_cons] at hc hd
      have hij : i = j := by
        by_contra hne
        rcases Nat.lt_or_gt_of_ne hne with hlt | hlt
        · have hi := h i
          rw [Cells.read, if_pos rfl, Cells.read, if_neg (by omega),
            Cells.read_none_of_lt rest' i (fun k hk => lt_trans hlt (hd.1 k hk))] at hi
          exact Option.some_ne_none _ hi
        · have hj := h j
          rw [Cells.read, if_neg (by omega), Cells.read_none_of_lt rest j (fun k hk => lt_trans hlt (hc.1 k hk)),
            Cells.read, if_pos rfl] at hj
          exact Option.some_ne_none _ hj.symm
      subst hij
      have hx : x = y := by simpa [Cells.read] using h i
      subst hx
      refine congrArg _ (ih rest' hc.2 hd.2 (fun k => ?_))
      by_cases hk : i = k
      · subst hk
        rw [Cells.read_none_of_lt rest i hc.1, Cells.read_none_of_lt rest' i hd.1]
      · simpa [Cells.read, hk] using h k

theorem Cells.read_isSome_iff (c : Cells α) (i : Nat) :
    (Cells.read c i).isSome = true ↔ i ∈ c.map Prod.fst := by
  induction c with
  | nil => simp [Cells.read]
  | cons p rest ih =>
    obtain ⟨k, x⟩ := p
    by_cases h : k = i
    · simp [Cells.read, h]
    · simp only [Cells.read, h, if_false, ih, List.map_cons, List.mem_cons, Ne.symm h, false_or]

/-- Exactly the indices below `n` are listed, in rising order, when the form is canonical and exactly they hold a value. -/
theorem Cells.keys_eq_range_iff (c : Cells α) (n : Nat) :
    c.map Prod.fst = List.range n ↔
      Cells.wf c = true ∧ ∀ i, (Cells.read c i).isSome = true ↔ i < n := by
  rw [Cells.wf_iff]
  constructor
  · intro h
    refine ⟨h ▸ List.pairwise_lt_range, fun i => ?_⟩
    rw [Cells.read_isSome_iff, h, List.mem_range]
  · rintro ⟨hp, hi⟩
    refine List.Perm.eq_of_pairwise (fun a b _ _ h1 h2 => absurd h1 (Nat.lt_asymm h2)) hp
      List.pairwise_lt_range ?_
    refine (List.perm_ext_iff_of_nodup (hp.imp (fun h => Nat.ne_of_lt h)) List.nodup_range).2 (fun a => ?_)
    rw [← Cells.read_isSome_iff, hi, List.mem_range]

end Sys2Proof.Machine
end

