-- ==== Sys2Proof/Laws/Buffers.lean ====
section
/-! SUPPORT. The two buffers under the shared operations: what a cell of RAW or WIRE reads as afterwards, reading a whole buffer, and how the invariant is kept or rebuilt. -/

namespace Sys2Proof.Machine

variable {α : Type}

/-! ## Reading a run of cells -/

/-- Reading `n` cells answers the list of exactly their values. -/
theorem readFrom_eq_some_iff (get : Nat → Option α) (i n : Nat) (vs : List α) :
    readFrom get i n = some vs ↔ vs.length = n ∧ ∀ j, j < n → get (i + j) = vs[j]? := by
  induction n generalizing i vs with
  | zero => cases vs <;> simp [readFrom]
  | succ n ih =>
    rw [readFrom]
    cases hg : get i with
    | none =>
      simp only [reduceCtorEq, false_iff, not_and]
      intro hl h
      have := h 0 (by omega)
      rw [Nat.add_zero, hg, List.getElem?_eq_getElem (by omega)] at this
      exact absurd this (by simp)
    | some v =>
      simp only [Option.map_eq_some_iff, ih]
      constructor
      · rintro ⟨ws, ⟨hl, h⟩, rfl⟩
        refine ⟨by simp [hl], fun j hj => ?_⟩
        cases j with
        | zero => simpa using hg
        | succ j =>
          rw [List.getElem?_cons_succ, ← h j (by omega)]
          exact congrArg get (by omega)
      · rintro ⟨hl, h⟩
        cases vs with
        | nil => simp at hl
        | cons w ws =>
          have hw : v = w := by
            have := h 0 (by omega)
            simpa [hg] using this
          subst hw
          refine ⟨ws, ⟨by simpa using hl, fun j hj => ?_⟩, rfl⟩
          have := h (j + 1) (by omega)
          rw [List.getElem?_cons_succ] at this
          rw [← this]
          exact congrArg get (by omega)

/-- Reading a run answers when every cell of it holds a value. -/
theorem exists_readFrom (get : Nat → Option α) (i n : Nat) (h : ∀ j, j < n → (get (i + j)).isSome = true) :
    ∃ vs, readFrom get i n = some vs := by
  induction n generalizing i with
  | zero => exact ⟨[], rfl⟩
  | succ n ih =>
    have h0 := h 0 (by omega)
    obtain ⟨v, hv⟩ := Option.isSome_iff_exists.1 h0
    obtain ⟨vs, hvs⟩ := ih (i + 1) (fun j hj => by
      have := h (j + 1) (by omega)
      rwa [show i + (j + 1) = i + 1 + j by omega] at this)
    refine ⟨v :: vs, ?_⟩
    rw [Nat.add_zero] at hv
    rw [readFrom, hv, hvs]
    rfl

/-! ## Numbers that fit 16 bits (R78 b, d) -/

theorem natVal_toNat (n : Nat) (h : n ≤ 65535) : (natVal n).toNat = n := by
  rw [natVal, BitVec.toNat_ofNat, Nat.mod_eq_of_lt (by omega)]

theorem succ_toNat (w : Word) (h : w.toNat < 65535) : (w + 1#16).toNat = w.toNat + 1 := by
  rw [BitVec.toNat_add]
  simp
  omega

theorem capacity_bounds (s : State) : 1 ≤ s.nw.val ∧ s.nw.val ≤ 21845 := s.nw.property

theorem natVal_of_toNat (w : Word) : natVal w.toNat = w := by
  simp [natVal]

/-! ## Cells of RAW -/

theorem State.rawCell_eq (s : State) (i : Nat) :
    s.rawCell i = if i < s.rawLen.toNat then Cells.read s.raw i else none := rfl

/-- `RAW[i] <- w; RAWLEN <- i + 1` at the fill count: cell `i` holds `w`, the others are as before (R101). -/
theorem State.rawCell_push (s : State) (w : Word) (h : s.rawLen.toNat < 65535) (i : Nat) :
    ((s.writeRaw s.rawLen.toNat [w]).setRawLen (s.rawLen + 1#16)).rawCell i =
      if i = s.rawLen.toNat then some w else s.rawCell i := by
  simp only [State.rawCell_eq, State.setRawLen_rawLen, State.setRawLen_raw, State.writeRaw_raw, succ_toNat _ h,
    Cells.read_below, Cells.writeFrom, Cells.read_write]
  by_cases h1 : i = s.rawLen.toNat
  · simp [h1]
  · by_cases h2 : i < s.rawLen.toNat
    · have : i < s.rawLen.toNat + 1 := by omega
      simp [h1, h2, this]
    · have : ¬ i < s.rawLen.toNat + 1 := by omega
      simp [h1, h2, this]

/-- `RAW[0 .. n-1] <- ws; RAWLEN <- n` (R93). -/
theorem State.putWords_rawIs (s : State) (ws : List Word) (h : ws.length ≤ 65535) : (s.putWords ws).RawIs ws := by
  intro i
  simp only [State.rawCell_eq, State.putWords_rawLen, State.putWords_raw, natVal_toNat _ h, Cells.read_below,
    Cells.read_writeFrom]
  by_cases h1 : i < ws.length
  · simp [h1]
  · simp [h1]

theorem State.rawIs_isSome (s : State) (ws : List Word) (h : s.RawIs ws) (i : Nat) :
    (s.rawCell i).isSome = true ↔ i < ws.length := by
  rw [h i]
  simp

/-! ## Cells of WIRE -/

theorem State.wireCell_eq (s : State) (i : Nat) :
    s.wireCell i = if i < s.wireLen.toNat then Cells.read s.wire i else none := rfl

/-- `MemWrite(WIRELEN, 1, b); WIRELEN <- WIRELEN + 1` (R105). -/
theorem State.wireCell_push (s : State) (b : Byte) (h : s.wireLen.toNat < 65535) (i : Nat) :
    ((s.memWrite1 s.wireLen.toNat b).setWireLen (s.wireLen + 1#16)).wireCell i =
      if i = s.wireLen.toNat then some b else s.wireCell i := by
  simp only [State.memWrite1_eq, State.wireCell_eq, State.setWireLen_wireLen, State.setWireLen_wire,
    State.writeWire_wire, succ_toNat _ h, Cells.read_below, Cells.writeFrom, Cells.read_write]
  by_cases h1 : i = s.wireLen.toNat
  · simp [h1]
  · by_cases h2 : i < s.wireLen.toNat
    · have : i < s.wireLen.toNat + 1 := by omega
      simp [h1, h2, this]
    · have : ¬ i < s.wireLen.toNat + 1 := by omega
      simp [h1, h2, this]

/-- `WIRE[0 .. m-1] <- bs; WIRELEN <- m` (R83, R84). -/
theorem State.putFrame_wireIs (s : State) (bs : List Byte) (h : bs.length ≤ 65535) : (s.putFrame bs).WireIs bs := by
  intro i
  simp only [State.wireCell_eq, State.putFrame_wireLen, State.putFrame_wire, natVal_toNat _ h, Cells.read_below,
    Cells.read_writeFrom]
  by_cases h1 : i < bs.length
  · simp [h1]
  · simp [h1]

/-! ## The invariant and the cells -/

theorem State.Inv.rawCell_isSome {s : State} (h : s.Inv) (i : Nat) :
    (s.rawCell i).isSome = true ↔ i < s.rawLen.toNat := by
  have := ((Cells.keys_eq_range_iff s.raw _).1 h.2.2.2.2.1).2 i
  rw [State.rawCell_eq]
  by_cases h1 : i < s.rawLen.toNat
  · simpa [h1] using this.2 h1
  · simp [h1]

theorem State.Inv.wireCell_isSome {s : State} (h : s.Inv) (i : Nat) :
    (s.wireCell i).isSome = true ↔ i < s.wireLen.toNat := by
  have := ((Cells.keys_eq_range_iff s.wire _).1 h.2.2.2.2.2).2 i
  rw [State.wireCell_eq]
  by_cases h1 : i < s.wireLen.toNat
  · simpa [h1] using this.2 h1
  · simp [h1]

/-- Under the invariant the raw buffer is a list of RAWLEN words, and reading it whole answers that list. -/
theorem State.Inv.exists_rawIs {s : State} (h : s.Inv) :
    ∃ ws, ws.length = s.rawLen.toNat ∧ s.RawIs ws ∧ s.rawWords = some ws := by
  obtain ⟨ws, hws⟩ := exists_readFrom s.rawCell 0 s.rawLen.toNat
    (fun j hj => (h.rawCell_isSome _).2 (by omega))
  obtain ⟨hl, hr⟩ := (readFrom_eq_some_iff _ _ _ _).1 hws
  refine ⟨ws, hl, fun i => ?_, hws⟩
  by_cases hi : i < s.rawLen.toNat
  · simpa using hr i hi
  · rw [List.getElem?_eq_none (by omega), State.rawCell_eq, if_neg hi]

/-- Under the invariant the wire buffer is a list of WIRELEN bytes, and reading it whole answers that list. -/
theorem State.Inv.exists_wireIs {s : State} (h : s.Inv) :
    ∃ bs, bs.length = s.wireLen.toNat ∧ s.WireIs bs ∧ s.wireBytes = some bs := by
  obtain ⟨bs, hbs⟩ := exists_readFrom s.wireCell 0 s.wireLen.toNat
    (fun j hj => (h.wireCell_isSome _).2 (by omega))
  obtain ⟨hl, hr⟩ := (readFrom_eq_some_iff _ _ _ _).1 hbs
  refine ⟨bs, hl, fun i => ?_, hbs⟩
  by_cases hi : i < s.wireLen.toNat
  · simpa using hr i hi
  · rw [List.getElem?_eq_none (by omega), State.wireCell_eq, if_neg hi]

/-- A list whose entries are exactly the readable cells is the one that is read. -/
theorem State.Inv.rawWords_of_rawIs {s : State} (h : s.Inv) {ws : List Word} (hw : s.RawIs ws) :
    s.rawWords = some ws ∧ ws.length = s.rawLen.toNat := by
  obtain ⟨vs, hl, hv, hr⟩ := h.exists_rawIs
  have : vs = ws := List.ext_getElem? (fun i => by rw [← hv i, hw i])
  subst this
  exact ⟨hr, hl⟩

theorem State.Inv.wireBytes_of_wireIs {s : State} (h : s.Inv) {bs : List Byte} (hw : s.WireIs bs) :
    s.wireBytes = some bs ∧ bs.length = s.wireLen.toNat := by
  obtain ⟨vs, hl, hv, hr⟩ := h.exists_wireIs
  have : vs = bs := List.ext_getElem? (fun i => by rw [← hv i, hw i])
  subst this
  exact ⟨hr, hl⟩

/-! ## Rebuilding the invariant -/

/-- Keys after emptying a buffer. -/
theorem Cells.below_zero (c : Cells α) : Cells.below c 0 = [] := by
  simp [Cells.below]

/-- Keys after writing at the fill count. -/
theorem Cells.keys_push (c : Cells α) (n : Nat) (v : α) (h : c.map Prod.fst = List.range n) :
    (Cells.below (Cells.writeFrom c n [v]) (n + 1)).map Prod.fst = List.range (n + 1) := by
  obtain ⟨hw, hr⟩ := (Cells.keys_eq_range_iff c n).1 h
  refine (Cells.keys_eq_range_iff _ _).2 ⟨Cells.wf_below _ _ (Cells.wf_writeFrom _ _ _ hw), fun i => ?_⟩
  simp only [Cells.read_below, Cells.writeFrom, Cells.read_write]
  by_cases h1 : i < n + 1
  · by_cases h2 : i = n
    · simp [h2]
    · simp only [h1, h2, if_true, if_false, iff_true]
      exact (hr i).2 (by omega)
  · simp [h1]

/-- Keys after writing a whole frame or word list from index 0. -/
theorem Cells.keys_put (c : Cells α) (n : Nat) (vs : List α) (h : c.map Prod.fst = List.range n) :
    (Cells.below (Cells.writeFrom c 0 vs) vs.length).map Prod.fst = List.range vs.length := by
  obtain ⟨hw, -⟩ := (Cells.keys_eq_range_iff c n).1 h
  refine (Cells.keys_eq_range_iff _ _).2 ⟨Cells.wf_below _ _ (Cells.wf_writeFrom _ _ _ hw), fun i => ?_⟩
  simp only [Cells.read_below, Cells.read_writeFrom]
  by_cases h1 : i < vs.length
  · simp [h1]
  · simp [h1]

end Sys2Proof.Machine
end

