-- ==== Sys2Proof/Laws/Crc.lean ====
section
/-! SUPPORT. The CRC loop is linear over exclusive or, loses no information, and its bit-serial form tracks it byte by byte (40_crc8.md R70 to R73). -/

namespace Sys2Proof.Machine

/-- One turn of the loop on a sum. -/
theorem crcShift_xor (a b : Byte) : crcShift (a ^^^ b) = crcShift a ^^^ crcShift b := by
  have hm : (a ^^^ b).msb = (a.msb ^^ b.msb) := BitVec.msb_xor
  simp only [crcShift, hm]
  cases ha : a.msb <;> cases hb : b.msb <;>
    simp only [Bool.false_xor, Bool.true_xor, Bool.not_true, Bool.not_false, Bool.false_eq_true, if_true, if_false,
      BitVec.shiftLeft_xor_distrib]
  · rw [BitVec.xor_assoc]
  · rw [BitVec.xor_assoc, BitVec.xor_comm (b <<< 1), ← BitVec.xor_assoc]
  · rw [BitVec.xor_assoc, BitVec.xor_comm (b <<< 1) crcPoly, ← BitVec.xor_assoc crcPoly crcPoly, BitVec.xor_self,
      BitVec.zero_xor]

theorem crcShifts_xor (n : Nat) (a b : Byte) : crcShifts n (a ^^^ b) = crcShifts n a ^^^ crcShifts n b := by
  induction n generalizing a b with
  | zero => rfl
  | succ n ih => rw [crcShifts, crcShift_xor, ih]; rfl

/-- The CRC of a pair, with the loop on each byte (R73 with `T` = `crcShifts 8`). -/
theorem crc8_eq (b0 b1 : Byte) : crc8 b0 b1 = crcShifts 8 (crcShifts 8 (0xFF#8 ^^^ b0) ^^^ b1) := by
  simp [crc8, crcOver, crcByte, crcInit, crcXorOut]

/-- Changing the second byte changes the CRC by the loop of the difference. -/
theorem crc8_xor_right (b0 b1 d : Byte) : crc8 b0 (b1 ^^^ d) = crc8 b0 b1 ^^^ crcShifts 8 d := by
  rw [crc8_eq, crc8_eq, ← BitVec.xor_assoc, crcShifts_xor]

/-- Changing the first byte changes the CRC by the loop, run twice, of the difference. -/
theorem crc8_xor_left (b0 b1 d : Byte) : crc8 (b0 ^^^ d) b1 = crc8 b0 b1 ^^^ crcShifts 8 (crcShifts 8 d) := by
  rw [crc8_eq, crc8_eq, ← BitVec.xor_assoc, crcShifts_xor 8 (0xFF#8 ^^^ b0) d, BitVec.xor_assoc,
    BitVec.xor_comm (crcShifts 8 d), ← BitVec.xor_assoc, crcShifts_xor]

/-- The loop on a difference is 0 only when there is none. -/
theorem crcShift_eq_zero (d : Byte) (h : crcShift d = 0#8) : d = 0#8 := by
  have : ∀ n : Fin 256, crcShift (BitVec.ofFin n) = 0#8 → (BitVec.ofFin n : Byte) = 0#8 := by
    decide +kernel
  exact this d.toFin h

theorem crcShifts_eq_zero (n : Nat) (d : Byte) (h : crcShifts n d = 0#8) : d = 0#8 := by
  induction n generalizing d with
  | zero => exact h
  | succ n ih => exact crcShift_eq_zero d (ih _ h)

theorem crcShifts_injective (n : Nat) (a b : Byte) (h : crcShifts n a = crcShifts n b) : a = b := by
  have : crcShifts n (a ^^^ b) = 0#8 := by rw [crcShifts_xor, h, BitVec.xor_self]
  exact BitVec.xor_eq_zero_iff.1 (crcShifts_eq_zero n _ this)

/-- One bit-step of the register is the loop turn with the input bit xored into bit 7 (R71). -/
theorem serialStep_eq (r : Byte) (d : Bool) :
    serialStep r d = crcShift (r ^^^ (if d then 0x80#8 else 0x00#8)) := by
  have : ∀ n : Fin 256, ∀ d : Bool,
      serialStep (BitVec.ofFin n) d = crcShift (BitVec.ofFin n ^^^ (if d then 0x80#8 else 0x00#8)) := by
    decide +kernel
  exact this r.toFin d

end Sys2Proof.Machine
end

