-- ==== Sys2Proof/Laws/Ops.lean ====
section
/-! SUPPORT. What the shared operations that end a request do, written out (30_encoding.md R52, 60_exceptions.md R143), and the fields of a response word. -/

namespace Sys2Proof.Machine

/-! ## Response words -/

/-- The bits of a response word. -/
theorem rspWord_getLsbD (c : Byte) (v : Word) (i : Nat) (hi : i < 32) :
    (rspWord c v).getLsbD i = if i < 16 then v.getLsbD i else if i < 24 then false else c.getLsbD (i - 24) := by
  simp only [rspWord, BitVec.getLsbD_or, BitVec.getLsbD_shiftLeft, BitVec.getLsbD_setWidth]
  by_cases h16 : i < 16
  · simp [h16, hi, show i < 24 by omega]
  · have hv : v.getLsbD i = false := BitVec.getLsbD_of_ge _ _ (by omega)
    by_cases h24 : i < 24
    · simp [h16, h24, hv]
    · simp [h16, h24, hi, hv, show i - 24 < 32 by omega]

theorem rspWord_code (c : Byte) (v : Word) : (rspWord c v).extractLsb' 24 8 = c := by
  refine BitVec.eq_of_getLsbD_eq (fun i hi => ?_)
  rw [BitVec.getLsbD_extractLsb', rspWord_getLsbD _ _ _ (by omega), if_neg (by omega), if_neg (by omega)]
  simp [hi]

theorem rspWord_zero (c : Byte) (v : Word) : (rspWord c v).extractLsb' 16 8 = 0#8 := by
  refine BitVec.eq_of_getLsbD_eq (fun i hi => ?_)
  rw [BitVec.getLsbD_extractLsb', rspWord_getLsbD _ _ _ (by omega), if_neg (by omega), if_pos (by omega)]
  simp

theorem rspWord_val (c : Byte) (v : Word) : (rspWord c v).extractLsb' 0 16 = v := by
  refine BitVec.eq_of_getLsbD_eq (fun i hi => ?_)
  rw [BitVec.getLsbD_extractLsb', rspWord_getLsbD _ _ _ (by omega), if_pos (by omega)]
  simp [hi]

@[simp] theorem rspCode_rspWord (c : Byte) (v : Word) : rspCode (rspWord c v) = c := rspWord_code c v

@[simp] theorem rspVal_rspWord (c : Byte) (v : Word) : rspVal (rspWord c v) = v := rspWord_val c v

/-- A response of code `OK` is its `val`, zero-extended. -/
theorem rspWord_ok (v : Word) : rspWord codeOk v = v.setWidth 32 := by
  simp [rspWord, codeOk]

theorem rspWord_ok_byte (b : Byte) : rspWord codeOk (zext16 b) = b.setWidth 32 := by
  rw [rspWord_ok, zext16]
  simp

/-- The only response appended is the last one. -/
theorem eq_of_append_eq (rs : List RspWord) (r q : RspWord) (h : rs ++ [r] = rs ++ [q]) : r = q := by
  simpa using h

/-! ## Error kinds -/

theorem ErrorKind.code_ne_ok (e : ErrorKind) : e.code ≠ 0#8 := by
  cases e <;> decide

theorem ErrorKind.code_le_five (e : ErrorKind) : e.code.toNat ≤ 5 := by
  cases e <;> decide

theorem ErrorKind.code_injective (e f : ErrorKind) (h : e.code = f.code) : e = f := by
  cases e <;> cases f <;> first | rfl | exact absurd h (by decide)

theorem ErrorKind.statusBit_eq (e : ErrorKind) : e.statusBit = 1#16 <<< (e.code.toNat - 1) := rfl

/-- Every sticky bit lies in bits 4:0 (R15). -/
theorem ErrorKind.statusBit_reserved (e : ErrorKind) : e.statusBit.extractLsb' 5 11 = 0#11 := by
  cases e <;> decide

/-! ## Ending a request -/

/-- All that `return val` does (R52). -/
theorem answer_eq (val : Word) (s : State) :
    answer val s = .next { s with responses := s.responses ++ [val.setWidth 32] } := by
  rw [answer, State.respond, rspWord_ok]

/-- All that `raise e(val)` does (R143). -/
theorem raise_eq (e : ErrorKind) (val : Word) (s : State) :
    raise e val s = .next { s with
      status := s.status ||| e.statusBit
      responses := s.responses ++ [rspWord e.code val] } := rfl

/-- Going on with cells that were read. -/
theorem withCells_some {α : Type} (x : α) (k : α → Result) : withCells (some x) k = k x := rfl

/-- A step over cells goes on exactly when the cells were read and what follows goes on. -/
theorem withCells_eq_next_iff {α : Type} (o : Option α) (k : α → Result) (t : State) :
    withCells o k = .next t ↔ ∃ x, o = some x ∧ k x = .next t := by
  cases o <;> simp [withCells]

/-! ## Register fields under the invariant -/

theorem State.Inv.status_mask {s : State} (h : s.Inv) : s.status &&& 0x001F#16 = s.status := by
  have h5 := h.2.2.1
  ext i hi
  have := congrArg (fun v => v.getLsbD (i - 5)) h5
  simp only [BitVec.getLsbD_extractLsb', BitVec.getLsbD_zero] at this
  by_cases hlt : i < 5
  · have : (0x001F#16).getLsbD i = true := by
      interval_cases i <;> rfl
    simp [← BitVec.getLsbD_eq_getElem, this]
  · rw [show 5 + (i - 5) = i by omega] at this
    have h11 : i - 5 < 11 := by omega
    simp [h11] at this
    simp [← BitVec.getLsbD_eq_getElem, this]

theorem State.Inv.cfg_mask {s : State} (h : s.Inv) : s.cfg &&& 0x01#8 = s.cfg := by
  have h1 := h.2.2.2.1
  ext i hi
  have := congrArg (fun v => v.getLsbD (i - 1)) h1
  simp only [BitVec.getLsbD_extractLsb', BitVec.getLsbD_zero] at this
  by_cases hlt : i < 1
  · have : i = 0 := by omega
    subst this
    simp
  · rw [show 1 + (i - 1) = i by omega] at this
    have h7 : i - 1 < 7 := by omega
    simp [h7] at this
    simp [← BitVec.getLsbD_eq_getElem, this]

end Sys2Proof.Machine
end

