-- ==== Sys2Proof/Laws/Codec.lean ====
section
/-! SUPPORT. The codec functions one wire-word at a time (30_encoding.md R56; 41_serializer.md R80, R81; 42_deserializer.md R90), and what each outcome of a decode says. -/

namespace Sys2Proof.Machine

/-! ## The two bytes of a word (R32, R59) -/

theorem joinBytes_getLsbD (hi lo : Byte) (i : Nat) (h : i < 16) :
    (joinBytes hi lo).getLsbD i = if i < 8 then lo.getLsbD i else hi.getLsbD (i - 8) := by
  simp only [joinBytes, BitVec.getLsbD_or, BitVec.getLsbD_shiftLeft, BitVec.getLsbD_setWidth]
  by_cases h8 : i < 8
  · simp [h8, h]
  · have hl : lo.getLsbD i = false := BitVec.getLsbD_of_ge _ _ (by omega)
    simp [h8, h, hl, show i - 8 < 16 by omega]

theorem joinBytes_hi_lo (w : Word) : joinBytes (hiByte w) (loByte w) = w := by
  refine BitVec.eq_of_getLsbD_eq (fun i hi => ?_)
  rw [joinBytes_getLsbD _ _ _ hi, hiByte, loByte, BitVec.getLsbD_extractLsb', BitVec.getLsbD_extractLsb']
  split
  · simp [*]
  · simp [show i - 8 < 8 by omega, show 8 + (i - 8) = i by omega]

theorem hiByte_join (hi lo : Byte) : hiByte (joinBytes hi lo) = hi := by
  refine BitVec.eq_of_getLsbD_eq (fun i h => ?_)
  rw [hiByte, BitVec.getLsbD_extractLsb', joinBytes_getLsbD _ _ _ (by omega), if_neg (by omega)]
  simp [h]

theorem loByte_join (hi lo : Byte) : loByte (joinBytes hi lo) = lo := by
  refine BitVec.eq_of_getLsbD_eq (fun i h => ?_)
  rw [loByte, BitVec.getLsbD_extractLsb', joinBytes_getLsbD _ _ _ (by omega), if_pos (by omega)]
  simp [h]

/-- `{d_hi, d_lo} = d_hi * 256 + d_lo` (R59, R78 f). -/
theorem joinBytes_eq_ofNat (hi lo : Byte) : joinBytes hi lo = BitVec.ofNat 16 (hi.toNat * 256 + lo.toNat) := by
  have hl := lo.isLt
  have hh := hi.isLt
  apply BitVec.eq_of_toNat_eq
  rw [joinBytes, BitVec.toNat_or, BitVec.toNat_shiftLeft, BitVec.toNat_setWidth, BitVec.toNat_setWidth,
    BitVec.toNat_ofNat, Nat.mod_eq_of_lt (by omega : hi.toNat < 2 ^ 16), Nat.mod_eq_of_lt (by omega : lo.toNat < 2 ^ 16),
    Nat.shiftLeft_eq, Nat.mod_eq_of_lt (by omega : hi.toNat * 2 ^ 8 < 2 ^ 16), Nat.mul_comm,
    ← Nat.two_pow_add_eq_or_of_lt (by omega), Nat.mod_eq_of_lt (by omega)]
  omega

/-! ## Encoding one wire-word at a time (R56, R80) -/

theorem encodeWords_nil : encodeWords [] = [] := rfl

theorem encodeWords_cons (w : Word) (ws : List Word) :
    encodeWords (w :: ws) = hiByte w :: loByte w :: crcWord w :: encodeWords ws := rfl

theorem frameBytes_head (cmd : Word) (ws : List Word) (c : Bool) :
    (frameBytes cmd ws c).length = headLength c + (encodeWords ws).length := by
  cases c <;> simp [frameBytes, frameHead, headLength, wireWord, wordBytes] <;> omega

/-! ## Decoding one wire-word at a time (R90) -/

theorem decodeFrom_nil (k : Nat) : decodeFrom k [] = .ok [] := rfl

theorem decodeFrom_cons (k : Nat) (hi lo crc : Byte) (rest : List Byte) :
    decodeFrom k (hi :: lo :: crc :: rest) =
      if crc8 hi lo = crc then (decodeFrom (k + 1) rest).map (fun ws => joinBytes hi lo :: ws)
      else .error (.checksum k) := by
  rw [decodeFrom, verify]
  by_cases h : crc8 hi lo = crc <;> simp [h]

/-- A valid first wire-word: the rest decides. -/
theorem decodeFrom_cons_valid (k : Nat) (hi lo : Byte) (rest : List Byte) :
    decodeFrom k (hi :: lo :: crc8 hi lo :: rest) =
      (decodeFrom (k + 1) rest).map (fun ws => joinBytes hi lo :: ws) := by
  rw [decodeFrom_cons, if_pos rfl]

theorem decodeBytes_of_mod (bs : List Byte) (h : bs.length % 3 = 0) : decodeBytes bs = decodeFrom 0 bs := by
  rw [decodeBytes, if_neg (by simpa using h)]

theorem decodeBytes_framing (bs : List Byte) (h : bs.length % 3 ≠ 0) : decodeBytes bs = .error .framing := by
  rw [decodeBytes, if_pos h]

/-- A list whose length is a multiple of 3 is empty or a wire-word and such a list. -/
theorem wireWord_cases (bs : List Byte) (h : bs.length % 3 = 0) :
    bs = [] ∨ ∃ hi lo crc rest, bs = hi :: lo :: crc :: rest ∧ rest.length % 3 = 0 := by
  match bs, h with
  | [], _ => exact .inl rfl
  | [_], h => simp at h
  | [_, _], h => simp at h
  | hi :: lo :: crc :: rest, h => exact .inr ⟨hi, lo, crc, rest, rfl, by simp at h; omega⟩

end Sys2Proof.Machine
end

