-- ==== Sys2Proof/Laws/Decode.lean ====
section
/-! SUPPORT. The fields of a packed word, the search of the opcode map, and what selecting a row says about the fields (30_encoding.md R50, R51, R54). -/

namespace Sys2Proof

/-- The bits of a packed word. -/
theorem pack_getLsbD (op : Byte) (a : Word) (b : Byte) (i : Nat) (hi : i < 32) :
    (packRequest op a b).getLsbD i =
      if i < 8 then b.getLsbD i else if i < 24 then a.getLsbD (i - 8) else op.getLsbD (i - 24) := by
  simp only [packRequest, BitVec.getLsbD_or, BitVec.getLsbD_shiftLeft, BitVec.getLsbD_setWidth]
  by_cases h8 : i < 8
  · simp [h8, hi, show i < 24 by omega]
  · have hb : b.getLsbD i = false := BitVec.getLsbD_of_ge _ _ (by omega)
    by_cases h24 : i < 24
    · simp [h8, h24, hi, hb, show i - 8 < 32 by omega]
    · have ha : a.getLsbD (i - 8) = false := BitVec.getLsbD_of_ge _ _ (by omega)
      simp [h8, h24, hi, hb, ha, show i - 24 < 32 by omega]

theorem opField_pack (op : Byte) (a : Word) (b : Byte) : opField (packRequest op a b) = op := by
  refine BitVec.eq_of_getLsbD_eq (fun i hi => ?_)
  rw [opField, BitVec.getLsbD_extractLsb', pack_getLsbD _ _ _ _ (by omega), if_neg (by omega), if_neg (by omega)]
  simp [hi]

theorem aField_pack (op : Byte) (a : Word) (b : Byte) : aField (packRequest op a b) = a := by
  refine BitVec.eq_of_getLsbD_eq (fun i hi => ?_)
  rw [aField, BitVec.getLsbD_extractLsb', pack_getLsbD _ _ _ _ (by omega), if_neg (by omega), if_pos (by omega)]
  simp [hi]

theorem bField_pack (op : Byte) (a : Word) (b : Byte) : bField (packRequest op a b) = b := by
  refine BitVec.eq_of_getLsbD_eq (fun i hi => ?_)
  rw [bField, BitVec.getLsbD_extractLsb', pack_getLsbD _ _ _ _ (by omega), if_pos (by omega)]
  simp [hi]

/-- A word is its three fields side by side. -/
theorem pack_fields (w : ReqWord) : packRequest (opField w) (aField w) (bField w) = w := by
  refine BitVec.eq_of_getLsbD_eq (fun i hi => ?_)
  rw [pack_getLsbD _ _ _ _ hi]
  simp only [opField, aField, bField, BitVec.getLsbD_extractLsb']
  split
  · simp [*]
  · split
    · simp [show i - 8 < 16 by omega, show 8 + (i - 8) = i by omega]
    · simp [show i - 24 < 8 by omega, show 24 + (i - 24) = i by omega]

theorem pack_injective {op op' : Byte} {a a' : Word} {b b' : Byte}
    (h : packRequest op a b = packRequest op' a' b') : op = op' ∧ a = a' ∧ b = b' :=
  ⟨by rw [← opField_pack op a b, h, opField_pack], by rw [← aField_pack op a b, h, aField_pack],
    by rw [← bField_pack op a b, h, bField_pack]⟩

theorem pack_and (op op' : Byte) (a a' : Word) (b b' : Byte) :
    packRequest op a b &&& packRequest op' a' b' = packRequest (op &&& op') (a &&& a') (b &&& b') := by
  refine BitVec.eq_of_getLsbD_eq (fun i hi => ?_)
  rw [BitVec.getLsbD_and, pack_getLsbD _ _ _ _ hi, pack_getLsbD _ _ _ _ hi, pack_getLsbD _ _ _ _ hi]
  split
  · simp
  · split <;> simp

/-! ## Rows -/

theorem Opcode.mem_all (o : Opcode) : o ∈ Opcode.all := by
  cases o <;> decide

theorem Opcode.number_injective (o p : Opcode) (h : o.number = p.number) : o = p := by
  cases o <;> cases p <;> first | rfl | exact absurd h (by decide)

/-- The search finds the row whose `op` it is given. -/
theorem findOpcode_number (o : Opcode) : findOpcode o.number = some o := by
  cases o <;> decide

theorem findOpcode_eq_some_iff (op : Byte) (o : Opcode) : findOpcode op = some o ↔ o.number = op := by
  constructor
  · intro h
    have := List.find?_some h
    simpa using this
  · rintro rfl
    exact findOpcode_number o

/-- The mask of a row, field by field: `op` whole, then the bits of `a` and of `b` that must be 0 (R51). -/
theorem Opcode.mask_eq (o : Opcode) :
    o.mask = packRequest 0xFF#8 (if o.format.usesA then 0x0000#16 else 0xFFFF#16)
      (match o.format with
        | .N => 0xFF#8
        | .A => 0xFF#8
        | .B => 0x00#8
        | .AB => 0x00#8
        | .C => 0xFE#8) := by
  cases o <;> decide

/-- A row selects a word exactly when the `op` is its own and the bits its format does not use are 0. -/
theorem Opcode.selects_pack_iff (o : Opcode) (op : Byte) (a : Word) (b : Byte) :
    o.selects (packRequest op a b) = true ↔
      op = o.number ∧ (o.format.usesA = false → a = 0#16) ∧
      (match o.format with
        | .N => b = 0#8
        | .A => b = 0#8
        | .B => True
        | .AB => True
        | .C => b &&& 0xFE#8 = 0#8) := by
  have hop : op &&& 0xFF#8 = op := BitVec.and_allOnes
  have ha : a &&& 0xFFFF#16 = a := BitVec.and_allOnes
  have hb : b &&& 0xFF#8 = b := BitVec.and_allOnes
  rw [Opcode.selects, beq_iff_eq, Opcode.mask_eq, Opcode.matchWord, pack_and]
  constructor
  · intro h
    obtain ⟨h1, h2, h3⟩ := pack_injective h
    rw [hop] at h1
    refine ⟨h1, fun hu => ?_, ?_⟩
    · rw [hu] at h2
      simpa [ha] using h2
    · revert h3
      cases o.format <;> simp [hb]
  · rintro ⟨h1, h2, h3⟩
    rw [hop, h1]
    congr 1
    · by_cases hu : o.format.usesA = true
      · simp [hu]
      · simp [hu, h2 (by simpa using hu)]
    · revert h3
      cases o.format <;> simp [hb]

/-- R54 in one line: the row of the word's `op`, if it selects the word. -/
theorem decode_pack (o : Opcode) (a : Word) (b : Byte) :
    decode (packRequest o.number a b) =
      if o.selects (packRequest o.number a b) then .ok (o.withFields a b)
      else .error (o.rejectName (packRequest o.number a b)) := by
  rw [decode, opField_pack, findOpcode_number, aField_pack, bField_pack]

/-- A row selects a word exactly when the word's `op` is its own and the bits its format does not use are 0. -/
theorem Opcode.selects_iff (o : Opcode) (w : ReqWord) :
    o.selects w = true ↔
      opField w = o.number ∧ (o.format.usesA = false → aField w = 0#16) ∧
      (match o.format with
        | .N => bField w = 0#8
        | .A => bField w = 0#8
        | .B => True
        | .AB => True
        | .C => bField w &&& 0xFE#8 = 0#8) := by
  have := o.selects_pack_iff (opField w) (aField w) (bField w)
  rwa [pack_fields] at this

/-- R54 for a word whose `op` is that of row `o`. -/
theorem decode_of_op (o : Opcode) (w : ReqWord) (h : opField w = o.number) :
    decode w = if o.selects w then .ok (o.withFields (aField w) (bField w)) else .error (o.rejectName w) := by
  rw [decode, h, findOpcode_number]

/-- A word decodes exactly when the row of its `op` selects it. -/
theorem decode_eq_ok_iff (w : ReqWord) (i : Instr) :
    decode w = .ok i ↔ ∃ o : Opcode, opField w = o.number ∧ o.selects w = true ∧
      i = o.withFields (aField w) (bField w) := by
  rw [decode]
  cases hf : findOpcode (opField w) with
  | none =>
    simp only [reduceCtorEq, false_iff, not_exists, not_and]
    intro o ho
    rw [ho, findOpcode_number] at hf
    cases hf
  | some o =>
    have ho := (findOpcode_eq_some_iff _ _).1 hf
    constructor
    · intro h
      by_cases hs : o.selects w = true
      · refine ⟨o, ho.symm, hs, ?_⟩
        simpa [hs, eq_comm] using h
      · simp [hs] at h
    · rintro ⟨p, hp, hs, rfl⟩
      have : p = o := Opcode.number_injective _ _ (hp.symm.trans ho.symm)
      subst this
      simp [hs]

theorem Instr.withFields_operands (i : Instr) : i.opcode.withFields i.aOperand i.bOperand = i := by
  cases i <;> rfl

end Sys2Proof
end

