-- ==== Sys2Proof/Laws/Exec.lean ====
section
/-! SUPPORT. How a request can end: one inversion lemma for `exec` and one for a request word, which say once every way a next state can arise (60_exceptions.md R143). -/

namespace Sys2Proof.Machine

/-- A request ended without error: the state but for the response is `u`. -/
abbrev EndsOk (t u : State) : Prop := ∃ val, t = u.respond codeOk val

/-- A request ended with error `e`: the state but for STATUS and the response is `u`. -/
abbrev EndsWith (e : ErrorKind) (t u : State) : Prop := ∃ val, t = (u.recordError e).respond e.code val

theorem endsOk_of_answer {val : Word} {u t : State} (h : answer val u = .next t) : EndsOk t u := by
  rw [answer, Host.Outcome.next.injEq] at h
  exact ⟨val, h.symm⟩

theorem endsWith_of_raise {e : ErrorKind} {val : Word} {u t : State} (h : raise e val u = .next t) : EndsWith e t u := by
  rw [raise, Host.Outcome.next.injEq] at h
  exact ⟨val, h.symm⟩

/-- The eight reads of R39. -/
def isRead : Instr → Bool
  | .crc8 _ => true
  | .crc8v _ _ => true
  | .wget _ => true
  | .wlen => true
  | .bget _ => true
  | .blen => true
  | .stat => true
  | .cfgr => true
  | .wclr => false
  | .wpush _ => false
  | .bclr => false
  | .bpush _ => false
  | .enc => false
  | .frame _ => false
  | .dec => false
  | .eclr => false
  | .cfgw _ => false

/-- What a request writes when it ends without error, and only that. -/
inductive Wrote : Instr → State → State → Prop where
  | nothing (i : Instr) (s : State) (h : isRead i = true) : Wrote i s s
  | wclr (s : State) : Wrote .wclr s (s.setRawLen 0#16)
  | wpush (w : Word) (s : State) (h : s.rawLen.toNat ≠ s.nw.val) :
      Wrote (.wpush w) s ((s.writeRaw s.rawLen.toNat [w]).setRawLen (s.rawLen + 1#16))
  | bclr (s : State) : Wrote .bclr s (s.setWireLen 0#16)
  | bpush (b : Byte) (s : State) (h : s.wireLen.toNat ≠ 3 * s.nw.val) :
      Wrote (.bpush b) s ((s.memWrite1 s.wireLen.toNat b).setWireLen (s.wireLen + 1#16))
  | enc (s : State) (ws : List Word) (h : s.rawWords = some ws) : Wrote .enc s (s.putFrame (encodeWords ws))
  | frame (cmd : Word) (s : State) (ws : List Word) (h : s.rawWords = some ws)
      (hr : headLength s.cmdCrc + 3 * s.rawLen.toNat ≤ 3 * s.nw.val) :
      Wrote (.frame cmd) s (s.putFrame (frameBytes cmd ws s.cmdCrc))
  | dec (s : State) (bs : List Byte) (ws : List Word) (h : s.wireBytes = some bs) (hd : decodeBytes bs = .ok ws) :
      Wrote .dec s (s.putWords ws)
  | eclr (s : State) : Wrote .eclr s (s.setStatus 0#16)
  | cfgw (b : Byte) (s : State) : Wrote (.cfgw b) s (s.setCfg (bitZero b))

/-- Every way `exec` goes on: without error, having written what its request writes; or with an error, having written
nothing, or, for `DEC`, `RAWLEN <- 0`. -/
theorem exec_next_cases {i : Instr} {s t : State} (h : exec i s = .next t) :
    (∃ u, Wrote i s u ∧ EndsOk t u) ∨
    (∃ e, i ≠ .dec ∧ EndsWith e t s) ∨
    (∃ e, i = .dec ∧ EndsWith e t (s.setRawLen 0#16)) := by
  have read : ∀ {i : Instr} {val : Word}, isRead i = true →
      answer val s = .next t → ∃ u, Wrote i s u ∧ EndsOk t u :=
    fun hi ha => ⟨s, .nothing _ s hi, endsOk_of_answer ha⟩
  cases i with
  | crc8 w => exact .inl (read rfl h)
  | crc8v w c => exact .inl (read rfl h)
  | wclr => exact .inl ⟨_, .wclr s, endsOk_of_answer h⟩
  | wpush w =>
    simp only [exec, execWpush] at h
    split at h
    · exact .inr (.inl ⟨_, nofun, endsWith_of_raise h⟩)
    · exact .inl ⟨_, .wpush w s ‹_›, endsOk_of_answer h⟩
  | wget a =>
    simp only [exec, execWget] at h
    split at h
    · exact .inr (.inl ⟨_, nofun, endsWith_of_raise h⟩)
    · obtain ⟨w, -, hw⟩ := (withCells_eq_next_iff _ _ _).1 h
      exact .inl (read rfl hw)
  | wlen => exact .inl (read rfl h)
  | bclr => exact .inl ⟨_, .bclr s, endsOk_of_answer h⟩
  | bpush b =>
    simp only [exec, execBpush] at h
    split at h
    · exact .inr (.inl ⟨_, nofun, endsWith_of_raise h⟩)
    · exact .inl ⟨_, .bpush b s ‹_›, endsOk_of_answer h⟩
  | bget a =>
    simp only [exec, execBget] at h
    split at h
    · exact .inr (.inl ⟨_, nofun, endsWith_of_raise h⟩)
    · obtain ⟨b, -, hb⟩ := (withCells_eq_next_iff _ _ _).1 h
      exact .inl (read rfl hb)
  | blen => exact .inl (read rfl h)
  | enc =>
    obtain ⟨ws, hw, hb⟩ := (withCells_eq_next_iff _ _ _).1 h
    exact .inl ⟨_, .enc s ws hw, endsOk_of_answer hb⟩
  | frame cmd =>
    simp only [exec, execFrame] at h
    split at h
    · exact .inr (.inl ⟨_, nofun, endsWith_of_raise h⟩)
    · obtain ⟨ws, hw, hb⟩ := (withCells_eq_next_iff _ _ _).1 h
      exact .inl ⟨_, .frame cmd s ws hw (by omega), endsOk_of_answer hb⟩
  | dec =>
    obtain ⟨bs, hw, hb⟩ := (withCells_eq_next_iff _ _ _).1 h
    split at hb
    · exact .inr (.inr ⟨_, rfl, endsWith_of_raise hb⟩)
    · exact .inr (.inr ⟨_, rfl, endsWith_of_raise hb⟩)
    · exact .inl ⟨_, .dec s bs _ hw ‹_›, endsOk_of_answer hb⟩
  | stat => exact .inl (read rfl h)
  | eclr => exact .inl ⟨_, .eclr s, endsOk_of_answer h⟩
  | cfgr => exact .inl (read rfl h)
  | cfgw b =>
    simp only [exec, execCfgw] at h
    split at h
    · exact .inl ⟨_, .cfgw b s, endsOk_of_answer h⟩
    · exact .inr (.inl ⟨_, nofun, endsWith_of_raise h⟩)

/-- The two ways a request word runs (R54, R55). -/
theorem runRequest_of_ok {w : ReqWord} {i : Instr} (h : decode w = .ok i) (s : State) : runRequest w s = exec i s := by
  rw [runRequest, h]

theorem runRequest_of_illegal {w : ReqWord} (h : IllegalWord w) (s : State) :
    runRequest w s = raise .illegal 0#16 s := by
  rw [runRequest]
  split
  · exact absurd ‹_› (h _)
  · rfl

theorem illegal_or_ok (w : ReqWord) : IllegalWord w ∨ ∃ i, decode w = .ok i := by
  cases hd : decode w with
  | error e => exact .inl (fun i hi => by rw [hd] at hi; cases hi)
  | ok i => exact .inr ⟨i, rfl⟩

/-- A word that decodes gives a well-formed request, so `CFGW` never meets a reserved bit through the decoder. -/
theorem illegal_iff_error (w : ReqWord) : IllegalWord w ↔ ∃ e, decode w = .error e := by
  constructor
  · intro h
    cases hd : decode w with
    | error e => exact ⟨e, rfl⟩
    | ok i => exact absurd hd (h i)
  · rintro ⟨e, he⟩ i hi
    rw [he] at hi
    cases hi

/-- Every way a request word goes on. -/
theorem runRequest_next_cases {w : ReqWord} {s t : State} (h : runRequest w s = .next t) :
    (∃ i u, decode w = .ok i ∧ Wrote i s u ∧ EndsOk t u) ∨
    (∃ e, decode w ≠ .ok .dec ∧ EndsWith e t s) ∨
    (∃ e, decode w = .ok .dec ∧ EndsWith e t (s.setRawLen 0#16)) := by
  rcases illegal_or_ok w with hi | ⟨i, hi⟩
  · rw [runRequest_of_illegal hi] at h
    exact .inr (.inl ⟨_, hi _, endsWith_of_raise h⟩)
  · rw [runRequest_of_ok hi] at h
    rcases exec_next_cases h with ⟨u, hu⟩ | ⟨e, hne, he⟩ | ⟨e, hd, he⟩
    · exact .inl ⟨i, u, hi, hu⟩
    · exact .inr (.inl ⟨e, by rw [hi]; simpa using hne, he⟩)
    · exact .inr (.inr ⟨e, by rw [hi, hd], he⟩)

/-- No request's own writes touch the responses, the capacity or the events still to come. -/
theorem Wrote.outside {i : Instr} {s u : State} (h : Wrote i s u) :
    u.responses = s.responses ∧ u.nw = s.nw ∧ u.inputs = s.inputs := by
  cases h <;> exact ⟨rfl, rfl, rfl⟩

/-- The response of a request that ended, whichever way it did. -/
theorem endsOk_responses {t u : State} (h : EndsOk t u) : ∃ val, t.responses = u.responses ++ [rspWord codeOk val] := by
  obtain ⟨val, rfl⟩ := h
  exact ⟨val, rfl⟩

theorem endsWith_responses {e : ErrorKind} {t u : State} (h : EndsWith e t u) :
    ∃ val, t.responses = u.responses ++ [rspWord e.code val] := by
  obtain ⟨val, rfl⟩ := h
  exact ⟨val, rfl⟩

end Sys2Proof.Machine
end

