-- ==== Sys2Proof/Laws/Loops.lean ====
section
/-! SUPPORT. The multi-byte memory operations byte by byte (20_memory.md R33, R34), as the loops of R83, R84 and R93 use them, and a run one step at a time. -/

namespace Sys2Proof.Machine

/-- The bits of three bytes put side by side, first byte most significant. -/
theorem threeBytes_getLsbD (x y z : Byte) (i : Nat) (hi : i < 24) :
    (x.setWidth 24 <<< 16 ||| y.setWidth 24 <<< 8 ||| z.setWidth 24 : BitVec 24).getLsbD i =
      if i < 8 then z.getLsbD i else if i < 16 then y.getLsbD (i - 8) else x.getLsbD (i - 16) := by
  simp only [BitVec.getLsbD_or, BitVec.getLsbD_shiftLeft, BitVec.getLsbD_setWidth]
  by_cases h8 : i < 8
  · simp [h8, hi, show i < 16 by omega]
  · have h1 : z.getLsbD i = false := BitVec.getLsbD_of_ge _ _ (by omega)
    by_cases h16 : i < 16
    · simp [h8, h16, hi, h1, show i - 8 < 24 by omega]
    · have h2 : y.getLsbD (i - 8) = false := BitVec.getLsbD_of_ge _ _ (by omega)
      simp [h8, h16, hi, h1, h2, show i - 16 < 24 by omega]

/-- Taking the three bytes apart again. -/
theorem threeBytes_fields (x y z : Byte) :
    (x.setWidth 24 <<< 16 ||| y.setWidth 24 <<< 8 ||| z.setWidth 24 : BitVec 24).extractLsb' 16 8 = x ∧
    (x.setWidth 24 <<< 16 ||| y.setWidth 24 <<< 8 ||| z.setWidth 24 : BitVec 24).extractLsb' 8 8 = y ∧
    (x.setWidth 24 <<< 16 ||| y.setWidth 24 <<< 8 ||| z.setWidth 24 : BitVec 24).extractLsb' 0 8 = z := by
  refine ⟨?_, ?_, ?_⟩ <;> refine BitVec.eq_of_getLsbD_eq (fun i hi => ?_) <;>
    rw [BitVec.getLsbD_extractLsb', threeBytes_getLsbD _ _ _ _ (by omega)]
  · simp [hi, show ¬ (16 + i < 8) by omega]
  · simp [hi, show ¬ (8 + i < 8) by omega, show 8 + i < 16 by omega]
  · simp [hi]

/-- `MemWrite(addr, 3, {w, crc8(w)})` writes the wire-word of `w` (R56, R83). -/
theorem State.memWrite3_wireWord (s : State) (addr : Nat) (w : Word) :
    s.memWrite3 addr (wireWordBits w) = s.writeWire addr (wireWord w) := by
  obtain ⟨h1, h2, h3⟩ := threeBytes_fields (hiByte w) (loByte w) (crcWord w)
  rw [State.memWrite3, wireWordBits, h1, h2, h3]
  rfl

/-- `MemRead(addr, 2)` (R33) of two readable bytes. -/
theorem State.memRead2_eq (s : State) (addr : Nat) (x y : Byte) (hx : s.wireCell addr = some x)
    (hy : s.wireCell (addr + 1) = some y) : s.memRead2 addr = some (joinBytes x y) := by
  have h : readFrom s.wireCell addr 2 = some [x, y] := by simp [readFrom, hx, hy]
  rw [State.memRead2, h]
  rfl

/-- `MemRead(addr, 3)` (R33) of three readable bytes: the bytes it puts side by side. -/
theorem State.memRead3_eq (s : State) (addr : Nat) (x y z : Byte) (hx : s.wireCell addr = some x)
    (hy : s.wireCell (addr + 1) = some y) (hz : s.wireCell (addr + 2) = some z) :
    ∃ ww, s.memRead3 addr = some ww ∧ ww.extractLsb' 16 8 = x ∧ ww.extractLsb' 8 8 = y ∧ ww.extractLsb' 0 8 = z := by
  have h : readFrom s.wireCell addr 3 = some [x, y, z] := by simp [readFrom, hx, hy, hz]
  exact ⟨_, by rw [State.memRead3, h], threeBytes_fields x y z⟩

/-- Two writes end to end are one write. -/
theorem State.writeWire_append (s : State) (i : Nat) (xs ys : List Byte) :
    (s.writeWire i xs).writeWire (i + xs.length) ys = s.writeWire i (xs ++ ys) := by
  simp only [State.writeWire, Cells.writeFrom_append]

theorem State.writeRaw_append (s : State) (i : Nat) (xs ys : List Word) :
    (s.writeRaw i xs).writeRaw (i + xs.length) ys = s.writeRaw i (xs ++ ys) := by
  simp only [State.writeRaw, Cells.writeFrom_append]

/-- A run whose first step goes on. -/
theorem run_succ_of_next (M : Host.Core) {k : Nat} {s t : M.State} (h : M.step s = .next t) :
    M.run (k + 1) s = M.run k t := by
  have e : M.run (k + 1) s = (match M.step s with
    | .next u => M.run k u
    | .fault r => .fault r
    | .refused r => .refused r) := rfl
  rw [e, h]

end Sys2Proof.Machine
end

