-- ==== Sys2Proof/Laws/PerInstr.lean ====
section
/-! SUPPORT. One lemma per request of the family EncodeMatches: the encoding of a well-formed request satisfies its row's mask and match (30_encoding.md R51). -/

namespace Sys2Proof.Laws.EncodeMatches

open Sys2Proof

/-- A well-formed request's word is selected by its own row, which is the row of its `op`. -/
def Statement (i : Instr) : Prop :=
  i.wellFormed = true → i.opcode.selects (encode i) = true ∧ opField (encode i) = i.opcode.number

/-- The rows whose unused fields are encoded as 0. -/
theorem of_operands (i : Instr)
    (h : i.wellFormed = true → (i.opcode.format.usesA = false → i.aOperand = 0#16) ∧
      (match i.opcode.format with
        | .N => i.bOperand = 0#8
        | .A => i.bOperand = 0#8
        | .B => True
        | .AB => True
        | .C => i.bOperand &&& 0xFE#8 = 0#8)) : Statement i := fun hw =>
  ⟨(Opcode.selects_pack_iff _ _ _ _).2 ⟨rfl, (h hw).1, (h hw).2⟩, opField_pack _ _ _⟩

theorem crc8 (word : Word) : Statement (.crc8 word) := of_operands _ (fun _ => ⟨nofun, rfl⟩)
theorem crc8v (word : Word) (crc : Byte) : Statement (.crc8v word crc) :=
  of_operands _ (fun _ => ⟨nofun, trivial⟩)
theorem wclr : Statement .wclr := of_operands _ (fun _ => ⟨fun _ => rfl, rfl⟩)
theorem wpush (word : Word) : Statement (.wpush word) := of_operands _ (fun _ => ⟨nofun, rfl⟩)
theorem wget (index : Word) : Statement (.wget index) := of_operands _ (fun _ => ⟨nofun, rfl⟩)
theorem wlen : Statement .wlen := of_operands _ (fun _ => ⟨fun _ => rfl, rfl⟩)
theorem bclr : Statement .bclr := of_operands _ (fun _ => ⟨fun _ => rfl, rfl⟩)
theorem bpush (byte : Byte) : Statement (.bpush byte) := of_operands _ (fun _ => ⟨fun _ => rfl, trivial⟩)
theorem bget (index : Word) : Statement (.bget index) := of_operands _ (fun _ => ⟨nofun, rfl⟩)
theorem blen : Statement .blen := of_operands _ (fun _ => ⟨fun _ => rfl, rfl⟩)
theorem enc : Statement .enc := of_operands _ (fun _ => ⟨fun _ => rfl, rfl⟩)
theorem frame (cmd : Word) : Statement (.frame cmd) := of_operands _ (fun _ => ⟨nofun, rfl⟩)
theorem dec : Statement .dec := of_operands _ (fun _ => ⟨fun _ => rfl, rfl⟩)
theorem stat : Statement .stat := of_operands _ (fun _ => ⟨fun _ => rfl, rfl⟩)
theorem eclr : Statement .eclr := of_operands _ (fun _ => ⟨fun _ => rfl, rfl⟩)
theorem cfgr : Statement .cfgr := of_operands _ (fun _ => ⟨fun _ => rfl, rfl⟩)
theorem cfgw (b : Byte) : Statement (.cfgw b) :=
  of_operands _ (fun h => ⟨fun _ => rfl, (beq_iff_eq.1 h : b &&& 0xFE#8 = 0#8)⟩)

end Sys2Proof.Laws.EncodeMatches
end

