-- ==== Sys2Proof/Laws/Requester.lean ====
section
/-! SUPPORT. Host procedures one request at a time (45_host_protocol.md R122, R123): what presenting a request or a list of requests gives, from what the block answers. -/

namespace Sys2Proof.Machine

variable {α β γ : Type}

@[simp] theorem HostRun.done_andThen (a : α) (s : State) (k : α → State → HostRun β) :
    (HostRun.done a s).andThen k = k a s := rfl

@[simp] theorem HostRun.failed_andThen (e : HostError) (s : State) (k : α → State → HostRun β) :
    (HostRun.failed e s : HostRun α).andThen k = .failed e s := rfl

theorem HostRun.andThen_assoc (r : HostRun α) (k : α → State → HostRun β) (l : β → State → HostRun γ) :
    (r.andThen k).andThen l = r.andThen (fun a s => (k a s).andThen l) := by
  cases r <;> rfl

/-- A request that the block answers with the response `r`. -/
theorem ask_of_next {i : Instr} {s t : State} {r : RspWord} (h : runRequest (encode i) s = .next t)
    (hr : t.responses = s.responses ++ [r]) : ask i s = .done r t := by
  have hs : step (s.present [i]) = .next t := h
  simp only [ask, hs, hr, List.getLast?_append, List.getLast?_singleton, Option.some_or]

theorem askAll_nil (s : State) : askAll [] s = .done [] s := rfl

/-- A first request that is answered, then the rest. -/
theorem askAll_cons_of_done {i : Instr} {is : List Instr} {s t : State} {r : RspWord} (h : ask i s = .done r t) :
    askAll (i :: is) s = (askAll is t).andThen (fun rs u => .done (r :: rs) u) := by
  rw [askAll, h]
  rfl

/-- One list after another. -/
theorem askAll_append (is js : List Instr) (s : State) :
    askAll (is ++ js) s =
      (askAll is s).andThen (fun rs t => (askAll js t).andThen (fun qs u => .done (rs ++ qs) u)) := by
  induction is generalizing s with
  | nil =>
    rw [askAll_nil, HostRun.done_andThen, List.nil_append]
    cases askAll js s <;> rfl
  | cons i is ih =>
    rw [List.cons_append, askAll, askAll, HostRun.andThen_assoc]
    congr 1
    funext r t
    rw [ih, HostRun.andThen_assoc, HostRun.andThen_assoc]
    congr 1
    funext rs u
    rw [HostRun.andThen_assoc]
    rfl

/-- A run of reads: every request answers code OK and its value, and leaves the block but for the responses. -/
theorem askAll_reads (is : List Instr) (f : Instr → Word) (s : State)
    (h : ∀ i ∈ is, ∀ rs, runRequest (encode i) { s with responses := rs } =
      .next { s with responses := rs ++ [rspWord codeOk (f i)] }) :
    askAll is s = .done (is.map (fun i => rspWord codeOk (f i)))
      { s with responses := s.responses ++ is.map (fun i => rspWord codeOk (f i)) } := by
  induction is generalizing s with
  | nil => simp [askAll_nil]
  | cons i is ih =>
    rw [askAll_cons_of_done (ask_of_next (h i List.mem_cons_self s.responses) rfl),
      ih { s with responses := s.responses ++ [rspWord codeOk (f i)] }
        (fun j hj rs => h j (List.mem_cons_of_mem _ hj) rs)]
    simp

end Sys2Proof.Machine
end

