-- ==== Sys2Proof/Tests/Slice0.lean ====
section
/-! SUPPORT. The model's own tests and the witnesses of its statements. Every expected value of a test_ theorem is copied from the spec (the V, P and S numbers are those of 95_test_vectors.md, the R numbers are rules and their examples). -/

namespace Sys2Proof.Tests

set_option maxRecDepth 1000

open Sys2Proof.Machine

/-! ## Building a small state and looking at one step -/

/-- A state whose buffers hold these words and bytes, with no event pending and no response yet. -/
def stateWith (nw : Config.Capacity) (raw : List Word) (wire : List Byte) (status : Word) (cfg : Byte) : State :=
  { State.resetWith nw with
    raw := (List.range raw.length).zip raw
    rawLen := natVal raw.length
    wire := (List.range wire.length).zip wire
    wireLen := natVal wire.length
    status := status
    cfg := cfg }

/-- Capacities 1, 2 and 4. -/
def cap1 : Config.Capacity := ⟨1, by decide⟩
def cap2 : Config.Capacity := ⟨2, by decide⟩
def cap4 : Config.Capacity := ⟨4, by decide⟩

/-- What R172 observes after one step that is given the request word. -/
def seen (w : ReqWord) (s : State) : Option Observation :=
  match step (s.withFetchWord 32 w.toNat) with
  | .next t => some t.observe
  | .fault _ => none
  | .refused _ => none

/-- The response word of one request. -/
def answered (w : ReqWord) (s : State) : Option (List RspWord) := (seen w s).map (fun o => o.responses)

/-- The state after one request term, if the step goes on. -/
def after (i : Instr) (s : State) : Option State :=
  match exec i s with
  | .next t => some t
  | .fault _ => none
  | .refused _ => none

theorem next_of_after {i : Instr} {s t : State} (h : after i s = some t) : exec i s = .next t := by
  rw [after] at h
  split at h
  · rw [Option.some.inj h.symm]
    assumption
  · cases h
  · cases h

theorem rawIs_of_read {s : State} (hi : s.Inv) {ws : List Word} (h : s.rawWords = some ws) : s.RawIs ws := by
  obtain ⟨vs, -, hv, hr⟩ := hi.exists_rawIs
  rw [hr] at h
  exact Option.some.inj h ▸ hv

/-! ## WellFormed smoke: the one check, with an ill-formed term it refuses -/

theorem test_wellFormed_refuses_reserved_bit : (Instr.cfgw 0x02#8).wellFormed = false := by decide
theorem test_wellFormed_refuses_reserved_bit_beside_legal : (Instr.cfgw 0x81#8).wellFormed = false := by decide
theorem test_wellFormed_accepts_option_bit : (Instr.cfgw 0x01#8).wellFormed = true := by decide

/-! ## Decoding: one word of every row, as V11 writes it -/

theorem test_decode_crc8 : decode 0x01BEEF00#32 = .ok (.crc8 0xBEEF#16) := by decide
theorem test_decode_crc8v : decode 0x02BEEF92#32 = .ok (.crc8v 0xBEEF#16 0x92#8) := by decide
theorem test_decode_wclr : decode 0x10000000#32 = .ok .wclr := by decide
theorem test_decode_wpush : decode 0x11019000#32 = .ok (.wpush 0x0190#16) := by decide
theorem test_decode_wget : decode 0x12000200#32 = .ok (.wget 0x0002#16) := by decide
theorem test_decode_wlen : decode 0x13000000#32 = .ok .wlen := by decide
theorem test_decode_bclr : decode 0x20000000#32 = .ok .bclr := by decide
theorem test_decode_bpush : decode 0x2100004C#32 = .ok (.bpush 0x4C#8) := by decide
theorem test_decode_bget : decode 0x22000500#32 = .ok (.bget 0x0005#16) := by decide
theorem test_decode_blen : decode 0x23000000#32 = .ok .blen := by decide
theorem test_decode_enc : decode 0x30000000#32 = .ok .enc := by decide
theorem test_decode_frame : decode 0x31368200#32 = .ok (.frame 0x3682#16) := by decide
theorem test_decode_dec : decode 0x32000000#32 = .ok .dec := by decide
theorem test_decode_stat : decode 0x40000000#32 = .ok .stat := by decide
theorem test_decode_eclr : decode 0x41000000#32 = .ok .eclr := by decide
theorem test_decode_cfgr : decode 0x42000000#32 = .ok .cfgr := by decide
theorem test_decode_cfgw : decode 0x43000001#32 = .ok (.cfgw 0x01#8) := by decide

/-- V10: each kind of illegal word is rejected under its name. -/
theorem test_decode_rejects :
    decode 0x00000000#32 = .error .unknownOp ∧ decode 0xFFFFFFFF#32 = .error .unknownOp ∧
    decode 0x0100BE01#32 = .error .nonzeroB ∧ decode 0x40000001#32 = .error .nonzeroB ∧
    decode 0x10000100#32 = .error .nonzeroA ∧ decode 0x21FF0012#32 = .error .nonzeroA ∧
    decode 0x43000100#32 = .error .nonzeroA ∧ decode 0x430000FE#32 = .error .reservedB := by decide

/-- The encoder gives the words of V11 back. -/
theorem test_encode_words :
    encode (.crc8v 0xBEEF#16 0x92#8) = 0x02BEEF92#32 ∧ encode (.bpush 0x4C#8) = 0x2100004C#32 ∧
    encode (.frame 0x3682#16) = 0x31368200#32 ∧ encode (.cfgw 0x01#8) = 0x43000001#32 := by decide

/-- A word numbered as the opcode table numbers it (bit 0 least significant). -/
theorem test_decodeTableWord : decodeTableWord 32 0x01BEEF00 = some (.crc8 0xBEEF#16) := by decide

/-! ## The CRC function -/

/-- S1 and V1. -/
theorem test_crc8_values :
    crc8 0x00#8 0x00#8 = 0x81#8 ∧ crc8 0x01#8 0x90#8 = 0x4C#8 ∧ crc8 0xAB#8 0xCD#8 = 0x6F#8 ∧
    crc8 0xFF#8 0xFE#8 = 0x9D#8 := by decide

/-- S3: single-bit flips of `BE EF 92`. -/
theorem test_verify_single_flips :
    verify 0xBE#8 0xEF#8 0x92#8 = true ∧ verify 0x3E#8 0xEF#8 0x92#8 = false ∧
    verify 0xBE#8 0xEE#8 0x92#8 = false ∧ verify 0xBE#8 0xEF#8 0x93#8 = false := by decide

/-- V3: `CRCR` after steps 1, 8 and 16 on the word 0xBEEF. -/
theorem test_serial_trace :
    serialStep 0xFF#8 true = 0xFE#8 ∧ (bitsMsbFirst 0xBE#8).foldl serialStep 0xFF#8 = 0x0C#8 ∧
    crc8Serial 0xBE#8 0xEF#8 = 0x92#8 := by decide

/-- V6: four entries. -/
theorem test_table_entries :
    crcTable 0x0E#8 = 0x1F#8 ∧ crcTable 0x7F#8 = 0xD6#8 ∧ crcTable 0xA1#8 = 0xCD#8 ∧ crcTable 0xC0#8 = 0x47#8 := by
  decide

/-! ## One step of every request -/

/-- V1. -/
theorem test_crc8 : answered 0x01BEEF00#32 State.reset = some [0x00000092#32] := by decide
theorem test_crc8_zero_result : answered 0x01FF0000#32 State.reset = some [0x00000000#32] := by decide

/-- V2. A mismatch is code OK. -/
theorem test_crc8v_match : answered 0x02BEEF92#32 State.reset = some [0x00000001#32] := by decide
theorem test_crc8v_mismatch : answered 0x02BEEF93#32 State.reset = some [0x00000000#32] := by decide

/-- R100, V8. -/
theorem test_wclr : (seen 0x10000000#32 (stateWith cap2 [0x0000#16, 0xFFFF#16] [] 0#16 0#8)).map
    (fun o => (o.responses, o.rawLen, o.raw)) = some ([0x00000000#32], 0#16, some []) := by decide

/-- V8: a push into the last cell, and into a full buffer. -/
theorem test_wpush_last : (seen 0x11FFFF00#32 (stateWith cap2 [0x0000#16] [] 0#16 0#8)).map
    (fun o => (o.responses, o.rawLen, o.raw)) = some ([0x00000002#32], 2#16, some [0x0000#16, 0xFFFF#16]) := by
  decide
theorem test_wpush_full : (seen 0x11123400#32 (stateWith cap2 [0x0000#16, 0xFFFF#16] [] 0#16 0#8)).map
    (fun o => (o.responses, o.rawLen, o.status)) = some ([0x05000000#32], 2#16, 0x0010#16) := by decide

/-- R102, V8: the last index, and an index that must not wrap. -/
theorem test_wget_last : answered 0x12000100#32 (stateWith cap2 [0x0000#16, 0xFFFF#16] [] 0#16 0#8) =
    some [0x0000FFFF#32] := by decide
theorem test_wget_beyond : (seen 0x12FFFF00#32 (stateWith cap2 [0x0000#16, 0xFFFF#16] [] 0#16 0#8)).map
    (fun o => (o.responses, o.status)) = some ([0x04000000#32], 0x0008#16) := by decide

/-- R103. -/
theorem test_wlen : answered 0x13000000#32 (stateWith cap4 [0x0190#16] [] 0#16 0#8) = some [0x00000001#32] := by
  decide

/-- R104, V8. -/
theorem test_bclr : (seen 0x20000000#32 (stateWith cap2 [] [0xAB#8, 0x01#8] 0#16 0#8)).map
    (fun o => (o.responses, o.wireLen, o.wire)) = some ([0x00000000#32], 0#16, some []) := by decide

/-- R105, and P7 step 8. -/
theorem test_bpush_first : (seen 0x210000BE#32 State.reset).map (fun o => (o.responses, o.wire)) =
    some ([0x00000001#32], some [0xBE#8]) := by decide
theorem test_bpush_full : (seen 0x21000022#32 (stateWith cap1 [] [0x00#8, 0x01#8, 0x11#8] 0#16 0#8)).map
    (fun o => (o.responses, o.wireLen, o.status)) = some ([0x05000000#32], 3#16, 0x0010#16) := by decide

/-- R106. -/
theorem test_bget_last : answered 0x22000200#32 (stateWith cap4 [] [0x01#8, 0x90#8, 0x4C#8] 0#16 0#8) =
    some [0x0000004C#32] := by decide
theorem test_bget_at_count : answered 0x22000300#32 (stateWith cap4 [] [0x01#8, 0x90#8, 0x4C#8] 0#16 0#8) =
    some [0x04000000#32] := by decide

/-- R107. -/
theorem test_blen : answered 0x23000000#32 (stateWith cap4 [] [0x01#8, 0x90#8, 0x4C#8] 0#16 0#8) =
    some [0x00000003#32] := by decide

/-- V4: a full RAW fills WIRE; a shorter one replaces a longer content. -/
theorem test_enc_full : (seen 0x30000000#32 (stateWith cap2 [0xBEEF#16, 0x0000#16] [] 0#16 0#8)).map
    (fun o => (o.responses, o.wire, o.raw)) =
      some ([0x00000006#32], some [0xBE#8, 0xEF#8, 0x92#8, 0x00#8, 0x00#8, 0x81#8], some [0xBEEF#16, 0x0000#16]) := by
  decide
theorem test_enc_replaces : (seen 0x30000000#32 (stateWith cap4 [] [0x01#8, 0x90#8, 0x4C#8] 0#16 0#8)).map
    (fun o => (o.responses, o.wireLen, o.wire)) = some ([0x00000000#32], 0#16, some []) := by decide

/-- V5: with and without the command's CRC byte. -/
theorem test_frame_plain : (seen 0x31123400#32 (stateWith cap4 [0x01F4#16] [] 0#16 0x00#8)).map
    (fun o => (o.responses, o.wire)) = some ([0x00000005#32], some [0x12#8, 0x34#8, 0x01#8, 0xF4#8, 0x33#8]) := by
  decide
theorem test_frame_cmdCrc : (seen 0x31123400#32 (stateWith cap4 [0x01F4#16] [] 0#16 0x01#8)).map
    (fun o => (o.responses, o.wire)) =
      some ([0x00000006#32], some [0x12#8, 0x34#8, 0x37#8, 0x01#8, 0xF4#8, 0x33#8]) := by decide

/-- V7: words delivered; and length 4 with a bad first wire-word, where the length is tested first. -/
theorem test_dec_words :
    (seen 0x32000000#32 (stateWith cap4 [0x7777#16] [0xBE#8, 0xEF#8, 0x92#8, 0x00#8, 0x00#8, 0x81#8] 0#16 0#8)).map
      (fun o => (o.responses, o.raw, o.status)) = some ([0x00000002#32], some [0xBEEF#16, 0x0000#16], 0#16) := by
  decide
theorem test_dec_length_first :
    (seen 0x32000000#32 (stateWith cap4 [0x7777#16] [0x01#8, 0x90#8, 0x4D#8, 0x00#8] 0#16 0#8)).map
      (fun o => (o.responses, o.raw, o.status)) = some ([0x01000000#32], some [], 0x0001#16) := by decide

/-- R93: the second wire-word fails. -/
theorem test_dec_checksum_index :
    (seen 0x32000000#32 (stateWith cap4 [0x7777#16] [0xBE#8, 0xEF#8, 0x92#8, 0x00#8, 0x00#8, 0x80#8] 0#16 0#8)).map
      (fun o => (o.responses, o.raw, o.wireLen, o.status)) =
      some ([0x02000001#32], some [], 6#16, 0x0002#16) := by decide

/-- V9. -/
theorem test_stat : (seen 0x40000000#32 (stateWith cap4 [] [] 0x000C#16 0#8)).map
    (fun o => (o.responses, o.status)) = some ([0x0000000C#32], 0x000C#16) := by decide
theorem test_eclr : (seen 0x41000000#32 (stateWith cap4 [0x0190#16] [] 0x000C#16 1#8)).map
    (fun o => (o.responses, o.status, o.rawLen, o.cfg)) = some ([0x00000000#32], 0#16, 1#16, 1#8) := by decide
theorem test_cfgr : answered 0x42000000#32 (stateWith cap4 [] [] 0#16 0x01#8) = some [0x00000001#32] := by
  decide
theorem test_cfgw_sets : (seen 0x43000001#32 State.reset).map (fun o => (o.responses, o.cfg)) =
    some ([0x00000000#32], 0x01#8) := by decide
theorem test_cfgw_illegal : (seen 0x43000003#32 State.reset).map (fun o => (o.responses, o.cfg, o.status)) =
    some ([0x03000000#32], 0x00#8, 0x0004#16) := by decide

/-- V10: an illegal word. -/
theorem test_illegal_word : (seen 0x00000000#32 State.reset).map (fun o => (o.responses, o.status)) =
    some ([0x03000000#32], 0x0004#16) := by decide

/-- R160: a reset event with a request in flight. -/
theorem test_reset_event :
    step { stateWith cap4 [0x0190#16] [0x01#8] 0x0008#16 0x01#8 with inputs := [.reset (some 0x30000000#32)] } =
      .next (stateWith cap4 [] [] 0#16 0#8) := by rfl

/-! ## The requester's side -/

/-- R61: the assembler's words, and the operand that does not fit. -/
theorem test_assembler :
    assembleLine (.request .crc8v [0xBEEF, 0x92]) = some [0x02BEEF92#32] ∧
    assembleLine (.request .cfgw [2]) = none ∧ assembleLine (.request .wpush [0x10000]) = none ∧
    assembleLine (.rawWord 0x43000002#32) = some [0x43000002#32] := by decide

/-- R62: the two pseudo-instructions. -/
theorem test_pseudo :
    assembleLine (.wload [0x01F4]) = some [0x10000000#32, 0x1101F400#32] ∧
    assembleLine (.wload []) = some [0x10000000#32] ∧
    assembleLine (.bload [0x01, 0xF4]) = some [0x20000000#32, 0x21000001#32, 0x210000F4#32] := by decide

/-- R122 as program P1 uses it. -/
theorem test_commandRequests :
    (commandRequests 0x1234#16 (some 0x01F4#16)).map encode = [0x10000000#32, 0x1101F400#32, 0x31123400#32] := by decide

/-- A transport whose writes succeed and whose reads deliver `bytes`. -/
def delivering (bytes : List Byte) : Transport where
  write := fun _ => true
  read := fun _ => some bytes

/-- What a procedure returns, or how it fails. -/
def outcome {α : Type} : HostRun α → Except HostError α
  | .done a _ => .ok a
  | .failed e _ => .error e

/-- P1 and P2: the bytes of `FRAME 0x1234` with the argument 0x01F4, for both values of CMDCRC. -/
theorem test_performCommand :
    outcome (performCommand (delivering []) 0x1234#16 (some 0x01F4#16) State.reset) =
      .ok [0x12#8, 0x34#8, 0x01#8, 0xF4#8, 0x33#8] := by decide
theorem test_performCommand_cmdCrc :
    outcome (performCommand (delivering []) 0x3682#16 none (stateWith cap4 [0x7777#16] [] 0#16 0x01#8)) =
      .ok [0x36#8, 0x82#8, 0x71#8] := by decide

/-- V7 and V4 through R123: two words delivered; the second wire-word garbled; a read that is too short. -/
theorem test_performCommandAndRead :
    outcome (performCommandAndRead (delivering [0xBE#8, 0xEF#8, 0x92#8, 0x00#8, 0x00#8, 0x81#8])
      ⟨0x1234#16, none, 2, 0⟩ State.reset) = .ok [0xBEEF#16, 0x0000#16] := by decide
theorem test_performCommandAndRead_checksum :
    outcome (performCommandAndRead (delivering [0xBE#8, 0xEF#8, 0x92#8, 0x00#8, 0x00#8, 0x80#8])
      ⟨0x1234#16, none, 2, 0⟩ State.reset) = .error (.code 0x02#8) := by decide
theorem test_performCommandAndRead_framing :
    outcome (performCommandAndRead (delivering [0x01#8, 0x90#8]) ⟨0x1234#16, none, 1, 0⟩ State.reset) =
      .error (.code 0x01#8) := by decide

/-! ## Witnesses: for every statement with hypotheses, states and operands that meet them together -/

/-- Room, none, an empty buffer: the boundary values of the fill counts. -/
def roomy : State := stateWith cap2 [0xBEEF#16] [0xBE#8, 0xEF#8, 0x92#8, 0x00#8, 0x00#8] 0#16 0#8
def full : State := stateWith cap2 [0xBEEF#16, 0x0000#16] [0xBE#8, 0xEF#8, 0x92#8, 0x00#8, 0x00#8, 0x81#8] 0x0010#16 1#8
/-- Wire-word 0 is valid, wire-word 1 is not. -/
def garbled : State := stateWith cap2 [0xBEEF#16] [0xBE#8, 0xEF#8, 0x92#8, 0x00#8, 0x00#8, 0x80#8] 0#16 0#8

theorem roomy_inv : roomy.Inv := by decide
theorem full_inv : full.Inv := by decide
theorem garbled_inv : garbled.Inv := by decide
theorem reset_inv : State.reset.Inv := by decide

theorem roomy_rawIs : roomy.RawIs [0xBEEF#16] := rawIs_of_read roomy_inv (by decide)
theorem full_rawIs : full.RawIs [0xBEEF#16, 0x0000#16] := rawIs_of_read full_inv (by decide)
theorem reset_rawIs : State.reset.RawIs [] := rawIs_of_read reset_inv (by decide)

theorem witness_SingleBitFlipIsDetected : (0 : Nat) < 8 ∧ (7 : Nat) < 8 := by decide

theorem witness_Crc8RequestComputesCrc :
    (0x01BEEF00#32).extractLsb' 24 8 = 0x01#8 ∧ (0x01BEEF00#32).extractLsb' 0 8 = 0#8 ∧
    (0x0100BE01#32).extractLsb' 24 8 = 0x01#8 ∧ (0x0100BE01#32).extractLsb' 0 8 ≠ 0#8 := by decide

theorem witness_Crc8vRequestVerifies : (0x02BEEF92#32).extractLsb' 24 8 = 0x02#8 := by decide

/-- For WCLR, WLEN, BCLR, BLEN, ENC, DEC, STAT, ECLR, CFGR: a word with the `op` that is not the request. -/
theorem witness_format_N_words :
    (0x10000001#32).extractLsb' 24 8 = 0x10#8 ∧ (0x13000001#32).extractLsb' 24 8 = 0x13#8 ∧
    (0x20000100#32).extractLsb' 24 8 = 0x20#8 ∧ (0x23000100#32).extractLsb' 24 8 = 0x23#8 ∧
    (0x30000001#32).extractLsb' 24 8 = 0x30#8 ∧ (0x32000100#32).extractLsb' 24 8 = 0x32#8 ∧
    (0x40000001#32).extractLsb' 24 8 = 0x40#8 ∧ (0x41000001#32).extractLsb' 24 8 = 0x41#8 ∧
    (0x42000001#32).extractLsb' 24 8 = 0x42#8 := by decide

theorem witness_WpushAppendsOrOverflows :
    (0x11019000#32).extractLsb' 24 8 = 0x11#8 ∧ (0x11019000#32).extractLsb' 0 8 = 0#8 ∧
    (0x11123401#32).extractLsb' 24 8 = 0x11#8 ∧ (0x11123401#32).extractLsb' 0 8 ≠ 0#8 ∧
    (full.Inv ∧ full.rawLen.toNat = full.nw.val) ∧
    (roomy.Inv ∧ roomy.rawLen.toNat < roomy.nw.val ∧ roomy.rawLen.toNat + 1 = roomy.nw.val) := by decide

theorem witness_WgetReadsOrRangeError :
    (0x12000200#32).extractLsb' 24 8 = 0x12#8 ∧ (0x12000200#32).extractLsb' 0 8 = 0#8 ∧
    (0x12000001#32).extractLsb' 24 8 = 0x12#8 ∧ (0x12000001#32).extractLsb' 0 8 ≠ 0#8 ∧
    (full.Inv ∧ (1#16).toNat < full.rawLen.toNat) ∧ full.rawLen.toNat ≤ (2#16).toNat := by decide

theorem witness_BpushAppendsOrOverflows :
    (0x2100004C#32).extractLsb' 24 8 = 0x21#8 ∧ (0x2100004C#32).extractLsb' 8 16 = 0#16 ∧
    (0x21010000#32).extractLsb' 24 8 = 0x21#8 ∧ (0x21010000#32).extractLsb' 8 16 ≠ 0#16 ∧
    (full.Inv ∧ full.wireLen.toNat = 3 * full.nw.val) ∧
    (roomy.Inv ∧ roomy.wireLen.toNat < 3 * roomy.nw.val ∧ roomy.wireLen.toNat + 1 = 3 * roomy.nw.val) := by decide

theorem witness_BgetReadsOrRangeError :
    (0x22000500#32).extractLsb' 24 8 = 0x22#8 ∧ (0x22000500#32).extractLsb' 0 8 = 0#8 ∧
    (0x22000001#32).extractLsb' 24 8 = 0x22#8 ∧ (0x22000001#32).extractLsb' 0 8 ≠ 0#8 ∧
    (full.Inv ∧ (5#16).toNat < full.wireLen.toNat) ∧ full.wireLen.toNat ≤ (6#16).toNat := by decide

theorem witness_EncodeLaysOutWireWords : ([0xBEEF#16, 0x0000#16] : List Word)[1]? = some 0x0000#16 := by decide

/-- Lengths 1 and 4; the first or the last wire-word bad; all good; no bytes at all. -/
theorem witness_DecodeFindsFirstFailure :
    ([0x01#8] : List Byte).length % 3 ≠ 0 ∧ ([0x01#8, 0x90#8, 0x4D#8, 0x00#8] : List Byte).length % 3 ≠ 0 ∧
    crc8 0x01#8 0x90#8 ≠ 0x4D#8 ∧ crc8 0xBE#8 0xEF#8 = 0x92#8 ∧ crc8 0x00#8 0x00#8 ≠ 0x80#8 ∧
    ([] : List Byte).length % 3 = 0 ∧
    decodeBytes [0x01#8, 0x90#8, 0x4D#8] = .error (.checksum 0) ∧
    decodeBytes [0xBE#8, 0xEF#8, 0x92#8, 0x00#8, 0x00#8, 0x80#8] = .error (.checksum 1) := by decide

theorem witness_DecodeInvertsEncode :
    decodeBytes [0x01#8, 0x90#8, 0x4C#8] = .ok [0x0190#16] ∧ decodeBytes [] = .ok [] ∧
    (encodeWords [0x0190#16])[2]? = some 0x4C#8 ∧ (7 : Nat) < 8 := by decide

theorem witness_EncSerializesRaw :
    (full.Inv ∧ full.RawIs [0xBEEF#16, 0x0000#16]) ∧ (State.reset.Inv ∧ State.reset.RawIs []) :=
  ⟨⟨full_inv, full_rawIs⟩, reset_inv, reset_rawIs⟩

theorem witness_FrameBuildsOrOverflows :
    ((0x31368200#32).extractLsb' 24 8 = 0x31#8 ∧ (0x31368200#32).extractLsb' 0 8 = 0#8) ∧
    ((0x31123401#32).extractLsb' 24 8 = 0x31#8 ∧ (0x31123401#32).extractLsb' 0 8 ≠ 0#8) ∧
    (full.Inv ∧ full.RawIs [0xBEEF#16, 0x0000#16] ∧ full.rawLen.toNat = full.nw.val ∧
      3 = if full.cfg.getLsbD 0 then 3 else 2) ∧
    (roomy.Inv ∧ roomy.RawIs [0xBEEF#16] ∧ roomy.rawLen.toNat < roomy.nw.val ∧
      2 = if roomy.cfg.getLsbD 0 then 3 else 2) :=
  ⟨by decide, by decide, ⟨full_inv, full_rawIs, by decide, by decide⟩, roomy_inv, roomy_rawIs, by decide, by decide⟩

/-- DEC's three clauses: five bytes; wire-word 0 good and wire-word 1 bad; both good. -/
theorem witness_DecExtractsOrFails :
    (roomy.Inv ∧ roomy.wireLen.toNat % 3 ≠ 0) ∧
    (garbled.Inv ∧ garbled.wireLen.toNat % 3 = 0 ∧ 1 < garbled.wireLen.toNat / 3 ∧ ¬ garbled.WireWordValid 1 ∧
      ∀ j, j < 1 → garbled.WireWordValid j) ∧
    (full.Inv ∧ full.wireLen.toNat % 3 = 0 ∧ ∀ k, k < full.wireLen.toNat / 3 → full.WireWordValid k) := by
  have g1 : crc8 0x00#8 0x00#8 ≠ 0x80#8 := by decide
  have g2 : crc8 0xBE#8 0xEF#8 = 0x92#8 := by decide
  have g3 : crc8 0x00#8 0x00#8 = 0x81#8 := by decide
  refine ⟨by decide, ⟨garbled_inv, by decide, by decide, ?_, ?_⟩, full_inv, by decide, ?_⟩
  · rintro ⟨hi, lo, crc, h1, h2, h3, h4⟩
    have e1 : some 0x00#8 = some hi := h1
    have e2 : some 0x00#8 = some lo := h2
    have e3 : some 0x80#8 = some crc := h3
    cases e1
    cases e2
    cases e3
    exact g1 h4
  · intro j hj
    have : j = 0 := by omega
    subst this
    exact ⟨_, _, _, rfl, rfl, rfl, g2⟩
  · intro k hk
    have hk : k < 2 := hk
    have : k = 0 ∨ k = 1 := by omega
    rcases this with rfl | rfl
    · exact ⟨_, _, _, rfl, rfl, rfl, g2⟩
    · exact ⟨_, _, _, rfl, rfl, rfl, g3⟩

theorem witness_StatReadsStatus_CfgrReadsConfiguration : full.Inv ∧ full.status ≠ 0#16 ∧ full.cfg = 0x01#8 := by decide

theorem witness_CfgwWritesOptionBit :
    (0x43000001#32).extractLsb' 24 8 = 0x43#8 ∧ (0x43000001#32).extractLsb' 1 23 = 0#23 ∧
    (0x43000002#32).extractLsb' 24 8 = 0x43#8 ∧ (0x43000002#32).extractLsb' 1 23 ≠ 0#23 ∧
    (0x43800000#32).extractLsb' 1 23 ≠ 0#23 := by decide

theorem witness_OpcodeMapIsTheTable : ∀ o ∈ Opcode.all, 0x10000001#32 &&& o.mask ≠ o.matchWord := by decide

theorem witness_WordsDecodeByMaskAndMatch :
    Opcode.cfgw ∈ Opcode.all ∧ 0x43000001#32 &&& Opcode.cfgw.mask = Opcode.cfgw.matchWord := by decide

theorem witness_DecodeOfEncodeIsTheRequest : (Instr.cfgw 0x01#8).wellFormed = true ∧ Instr.dec.wellFormed = true := by
  decide

theorem witness_DecodedWordIsItsEncoding : decode 0x43000001#32 = .ok (.cfgw 0x01#8) := by decide

theorem witness_StepRunsTheDecodedRequest :
    (0x02#8) &&& 0xFE#8 ≠ 0#8 ∧
    ({ full with inputs := [.request 0x40000000#32] } : State).inputs = .request 0x40000000#32 :: [] ∧
    decode 0x40000000#32 = .ok .stat ∧ decodeTableWord 32 0x40000000 = some .stat := by decide

theorem witness_IdleStepChangesNothing : full.inputs = [] := by decide

/-- One illegal word of each kind of R55, and an `op` that no row has. -/
theorem witness_IllegalWordRaisesIllegalRequest :
    IllegalWord 0x00000000#32 ∧ IllegalWord 0x10000001#32 ∧ IllegalWord 0x21010000#32 ∧ IllegalWord 0x43000002#32 ∧
    (∀ o ∈ Opcode.all, o.number ≠ (0x03000000#32).extractLsb' 24 8) ∧
    ((0x10000001#32).extractLsb' 24 8 = Opcode.wclr.number ∧ (0x10000001#32).extractLsb' 0 8 ≠ 0#8 ∧
      Opcode.wclr.format = .N) ∧
    ((0x01BEEF01#32).extractLsb' 24 8 = Opcode.crc8.number ∧ (0x01BEEF01#32).extractLsb' 0 8 ≠ 0#8 ∧
      Opcode.crc8.format = .A) ∧
    ((0x21010000#32).extractLsb' 24 8 = Opcode.bpush.number ∧ (0x21010000#32).extractLsb' 8 16 ≠ 0#16 ∧
      Opcode.bpush.format = .B) ∧
    ((0x43000002#32).extractLsb' 24 8 = Opcode.cfgw.number ∧ (0x43000002#32).extractLsb' 1 7 ≠ 0#7) := by
  refine ⟨(illegal_iff_error _).2 ⟨.unknownOp, by decide⟩, (illegal_iff_error _).2 ⟨.nonzeroB, by decide⟩,
    (illegal_iff_error _).2 ⟨.nonzeroA, by decide⟩, (illegal_iff_error _).2 ⟨.reservedB, by decide⟩, ?_⟩
  decide

/-- A request that ends in each of the five errors, from a state with the invariant (ErrorsArePrecise,
ErrorsExactlyWhenCaused, StatusIsSticky). -/
theorem witness_errors :
    (∃ t, runRequest 0x32000000#32 roomy = .next t ∧ t.responses = roomy.responses ++ [0x01000000#32]) ∧
    (∃ t, runRequest 0x32000000#32 garbled = .next t ∧ t.responses = garbled.responses ++ [0x02000001#32]) ∧
    (∃ t, runRequest 0x00000000#32 roomy = .next t ∧ t.responses = roomy.responses ++ [0x03000000#32]) ∧
    (∃ t, runRequest 0x12000100#32 roomy = .next t ∧ t.responses = roomy.responses ++ [0x04000000#32]) ∧
    (∃ t, runRequest 0x31000000#32 full = .next t ∧ t.responses = full.responses ++ [0x05000000#32]) := by
  refine ⟨⟨_, rfl, rfl⟩, ⟨_, next_of_after (i := .dec) (t := ?_) ?_, ?_⟩, ⟨_, rfl, rfl⟩, ⟨_, rfl, rfl⟩, ⟨_, rfl, rfl⟩⟩
  · exact { garbled with raw := [], rawLen := 0#16, status := 0x0002#16, responses := [0x02000001#32] }
  · decide
  · rfl

/-- A request that succeeds (StatusIsSticky, OnlyListedRequestsWrite,
ConfigurationOnlyReachesFrame, ReadsHaveNoSideEffect), and one that clears the record. -/
theorem witness_successes :
    decode 0x13000000#32 ≠ .ok .stat ∧ decode 0x13000000#32 ≠ .ok .eclr ∧
    (∃ t, runRequest 0x13000000#32 full = .next t ∧ exec .wlen full = .next t ∧
      t.responses = full.responses ++ [0x00000002#32]) ∧
    (∃ t, runRequest 0x41000000#32 full = .next t ∧ decode 0x41000000#32 = .ok .eclr ∧
      t.responses = full.responses ++ [0x00000000#32]) :=
  ⟨by decide, by decide, ⟨_, rfl, rfl, rfl⟩, ⟨_, rfl, by decide, rfl⟩⟩

theorem witness_FailedDecodeYieldsNoWord :
    ∃ t, exec .dec roomy = .next t ∧ t.responses = roomy.responses ++ [0x01000000#32] ∧
      (0x01000000#32).extractLsb' 24 8 ≠ 0#8 := ⟨_, rfl, rfl, by decide⟩

/-- The last wire-word; and the last place where 1, 2 and 3 bytes fit below the fill count. -/
theorem witness_MemReadIsBigEndian :
    (full.wireCell 3 = some 0x00#8 ∧ full.wireCell 4 = some 0x00#8 ∧ full.wireCell 5 = some 0x81#8) ∧
    5 + 1 ≤ full.wireLen.toNat ∧ 4 + 2 ≤ full.wireLen.toNat ∧ 3 + 3 ≤ full.wireLen.toNat := by decide

/-- EncLoopIsEnc, FrameLoopIsFrame, DecLoopsAreDec, EncThenDecRestoresRaw, RunsNeverStop. -/
theorem witness_states_with_the_invariant : roomy.Inv ∧ full.Inv ∧ garbled.Inv ∧ State.reset.Inv :=
  ⟨roomy_inv, full_inv, garbled_inv, reset_inv⟩

theorem witness_StepKeepsInvariant_EveryRequestIsAnswered :
    ∃ s t : State, s.Inv ∧ s.inputs = [.request 0x13000000#32] ∧ step s = .next t :=
  ⟨{ full with inputs := [.request 0x13000000#32] }, _, full_inv, rfl, rfl⟩

theorem witness_ResetInputGivesResetState :
    ({ full with inputs := [.reset (some 0x30000000#32)] } : State).inputs = [.reset (some 0x30000000#32)] := by decide

theorem witness_DecOfOutboundFrame :
    (roomy.Inv ∧ roomy.RawIs [0xBEEF#16] ∧ roomy.rawLen.toNat < roomy.nw.val ∧ roomy.cfg.getLsbD 0 = false) ∧
    (State.Inv { roomy with cfg := 1#8 } ∧ State.RawIs { roomy with cfg := 1#8 } [0xBEEF#16] ∧
      ({ roomy with cfg := 1#8 } : State).rawLen.toNat < ({ roomy with cfg := 1#8 } : State).nw.val ∧
      ({ roomy with cfg := 1#8 } : State).cfg.getLsbD 0 = true) :=
  ⟨⟨roomy_inv, roomy_rawIs, by decide, by decide⟩, by decide, roomy_rawIs, by decide, by decide⟩

theorem witness_ObservationDeterminesState : full.Inv ∧ full.observe = full.observe := ⟨full_inv, rfl⟩

/-- HostProceduresUseTheBlock: an argument that fills RAW (NW = 1), one that does not, none; a write that fails; a read that
fails; and reads that decode, fail in each way, or decode to another number of words. -/
theorem witness_HostProceduresUseTheBlock :
    (State.Inv (stateWith cap1 [] [] 0#16 0#8) ∧
      (some 0x01F4#16 : Option Word).toList.length = (stateWith cap1 [] [] 0#16 0#8).nw.val) ∧
    (full.Inv ∧ (some 0x01F4#16 : Option Word).toList.length < full.nw.val ∧ (none : Option Word).toList.length < cap1.val) ∧
    (delivering []).write [] = true ∧ ({ write := fun _ => false, read := fun _ => none } : Transport).write [] = false ∧
    ({ write := fun _ => true, read := fun _ => none } : Transport).read 6 = none ∧ 2 ≤ full.nw.val ∧
    decodeBytes ([0x01#8, 0x90#8].take 6) = .error .framing ∧
    decodeBytes ([0xBE#8, 0xEF#8, 0x92#8, 0x00#8, 0x00#8, 0x80#8].take 6) = .error (.checksum 1) ∧
    decodeBytes ([0xBE#8, 0xEF#8, 0x92#8, 0x00#8, 0x00#8, 0x81#8].take 6) = .ok [0xBEEF#16, 0x0000#16] ∧
    decodeBytes ([0x01#8, 0x90#8, 0x4C#8].take 6) = .ok [0x0190#16] := by decide

end Sys2Proof.Tests
end

section
/-! STATUS is sticky and alters nothing (10_state.md R16). -/

namespace Sys2Proof.Machine

/-! ## What STATUS holds after a request -/

theorem Wrote.status_of_ne_eclr {i : Instr} {s u : State} (h : Wrote i s u) (hi : i ≠ .eclr) : u.status = s.status := by
  cases h with
  | eclr => exact absurd rfl hi
  | nothing | wclr | wpush | bclr | bpush | enc | frame | dec | cfgw => rfl

theorem exec_eclr_eq (s : State) : exec .eclr s = .next ((s.setStatus 0#16).respond codeOk 0#16) := rfl

theorem exec_stat_eq (s : State) : exec .stat s = .next (s.respond codeOk s.readStatus) := rfl

/-- A request word that goes on either takes an error, whose sticky bit is set, or ends with code `OK` and, unless it is
`ECLR`, leaves STATUS (R16, R143). -/
theorem runRequest_next_status {w : ReqWord} {s t : State} (h : runRequest w s = .next t) :
    (∃ e val, t.status = s.status ||| ErrorKind.statusBit e ∧ t.responses = s.responses ++ [rspWord e.code val]) ∨
    (∃ val, (decode w ≠ .ok .eclr → t.status = s.status) ∧ t.responses = s.responses ++ [rspWord codeOk val]) := by
  rcases runRequest_next_cases h with ⟨i, u, hd, hu, val, rfl⟩ | ⟨e, -, val, rfl⟩ | ⟨e, -, val, rfl⟩
  · refine .inr ⟨val, fun hne => hu.status_of_ne_eclr fun hi => hne (hi ▸ hd), ?_⟩
    rw [State.respond_responses, hu.outside.1]
  · exact .inl ⟨e, val, rfl, rfl⟩
  · exact .inl ⟨e, val, rfl, rfl⟩

/-! ## STATUS alters no request but `STAT` -/

/-- Where `o` goes on, `o'` goes on to the same state but for STATUS; the response is part of that state. -/
def SameButStatus (o o' : Result) : Prop := ∀ t, o = .next t → ∃ y, o' = .next (t.setStatus y)

theorem sameButStatus_answer (val : Word) (u : State) (x : Word) :
    SameButStatus (answer val u) (answer val (u.setStatus x)) := by
  rintro _ ⟨⟩
  exact ⟨x, rfl⟩

theorem sameButStatus_raise (e : ErrorKind) (val : Word) (u : State) (x : Word) :
    SameButStatus (raise e val u) (raise e val (u.setStatus x)) := by
  rintro _ ⟨⟩
  exact ⟨x ||| e.statusBit, rfl⟩

theorem sameButStatus_withCells {α : Type} (c : Option α) {k k' : α → Result} (h : ∀ a, SameButStatus (k a) (k' a)) :
    SameButStatus (withCells c k) (withCells c k') := by
  cases c with
  | none => exact nofun
  | some a => exact h a

theorem sameButStatus_ite {c : Prop} [Decidable c] {a a' b b' : Result} (ha : SameButStatus a a')
    (hb : SameButStatus b b') : SameButStatus (if c then a else b) (if c then a' else b') := by
  split
  · exact ha
  · exact hb

theorem execDec_sameButStatus (s : State) (x : Word) : SameButStatus (execDec s) (execDec (s.setStatus x)) := by
  refine sameButStatus_withCells s.wireBytes fun bs => ?_
  rcases decodeBytes bs with (_ | k) | ws
  · exact sameButStatus_raise .framing 0#16 (s.setRawLen 0#16) x
  · exact sameButStatus_raise .checksum (natVal k) (s.setRawLen 0#16) x
  · exact sameButStatus_answer (natVal ws.length) (s.putWords ws) x

/-- No meaning but that of `STAT` reads STATUS, and every write commutes with a change of it. -/
theorem exec_sameButStatus {i : Instr} (hi : i ≠ .stat) (s : State) (x : Word) :
    SameButStatus (exec i s) (exec i (s.setStatus x)) := by
  cases i with
  | stat => exact absurd rfl hi
  | dec => exact execDec_sameButStatus s x
  | eclr => exact sameButStatus_answer _ (s.setStatus 0#16) 0#16
  | crc8 | crc8v | wlen | blen | cfgr => exact sameButStatus_answer _ s x
  | wclr => exact sameButStatus_answer _ (s.setRawLen 0#16) x
  | bclr => exact sameButStatus_answer _ (s.setWireLen 0#16) x
  | wpush w =>
    exact sameButStatus_ite (sameButStatus_raise _ _ s x)
      (sameButStatus_answer _ ((s.writeRaw s.rawLen.toNat [w]).setRawLen (s.rawLen + 1#16)) x)
  | bpush b =>
    exact sameButStatus_ite (sameButStatus_raise _ _ s x)
      (sameButStatus_answer _ ((s.memWrite1 s.wireLen.toNat b).setWireLen (s.wireLen + 1#16)) x)
  | wget | bget =>
    exact sameButStatus_ite (sameButStatus_raise _ _ s x)
      (sameButStatus_withCells _ fun _ => sameButStatus_answer _ s x)
  | enc => exact sameButStatus_withCells _ fun ws => sameButStatus_answer _ (s.putFrame (encodeWords ws)) x
  | frame cmd =>
    exact sameButStatus_ite (sameButStatus_raise _ _ s x)
      (sameButStatus_withCells _ fun ws => sameButStatus_answer _ (s.putFrame (frameBytes cmd ws s.cmdCrc)) x)
  | cfgw b =>
    exact sameButStatus_ite (sameButStatus_answer _ (s.setCfg (bitZero b)) x) (sameButStatus_raise _ _ s x)

theorem runRequest_sameButStatus {w : ReqWord} (hw : decode w ≠ .ok .stat) (s : State) (x : Word) :
    SameButStatus (runRequest w s) (runRequest w (s.setStatus x)) := by
  rcases illegal_or_ok w with hi | ⟨i, hi⟩
  · rw [runRequest_of_illegal hi, runRequest_of_illegal hi]
    exact sameButStatus_raise _ _ s x
  · rw [runRequest_of_ok hi, runRequest_of_ok hi]
    exact exec_sameButStatus (fun h => hw (h ▸ hi)) s x

/-- Settles O41: the sticky law from the ways a request ends, the rest from `SameButStatus`. -/
theorem statusIsSticky : Obligations.StatusIsSticky := by
  refine ⟨fun w s t r h hr => ?_, assertReset_status, fun w s t x hw h => runRequest_sameButStatus hw s x t h,
    fun s x => ⟨_, _, _, _, exec_stat_eq s, exec_stat_eq _, rfl, rfl⟩⟩
  have cleared : decode w = .ok .eclr → t.status = 0#16 := fun hd => by
    rw [runRequest_of_ok hd, exec_eclr_eq] at h
    cases h
    rfl
  rcases runRequest_next_status h with ⟨e, val, hs, hr'⟩ | ⟨val, hs, hr'⟩
  · obtain rfl : r = rspWord e.code val := eq_of_append_eq _ _ _ (hr.symm.trans hr')
    rw [rspWord_code]
    exact ⟨fun _ => hs, fun h0 => absurd h0 e.code_ne_ok, cleared⟩
  · obtain rfl : r = rspWord codeOk val := eq_of_append_eq _ _ _ (hr.symm.trans hr')
    rw [rspWord_code]
    exact ⟨fun hne => absurd rfl hne, fun _ => hs, cleared⟩

/-! ## The reset state (10_state.md R22) -/

/-- A cell at or beyond its fill count is not readable (R11, R13). -/
theorem State.rawCell_of_rawLen_le {s : State} {i : Nat} (h : s.rawLen.toNat ≤ i) : s.rawCell i = none := by
  rw [State.rawCell_eq, if_neg (by omega)]

theorem State.wireCell_of_wireLen_le {s : State} {i : Nat} (h : s.wireLen.toNat ≤ i) : s.wireCell i = none := by
  rw [State.wireCell_eq, if_neg (by omega)]

/-- Settles O51: both counts are 0, so every index is beyond them. -/
theorem resetState : Obligations.ResetState := fun nw =>
  ⟨State.resetWith_rawLen nw, State.resetWith_wireLen nw, State.resetWith_status nw, State.resetWith_cfg nw,
    BitVec.getLsbD_zero, fun i => State.rawCell_of_rawLen_le (Nat.zero_le i),
    fun i => State.wireCell_of_wireLen_le (Nat.zero_le i), Config.resetCapacity, rfl⟩

end Sys2Proof.Machine
end

section
/-! Every request word is one row's request or illegal (30_encoding.md R53 to R55). -/

namespace Sys2Proof

theorem Opcode.selects_iff_mask_match (o : Opcode) (w : ReqWord) :
    o.selects w = true ↔ w &&& o.mask = o.matchWord := beq_iff_eq

theorem Opcode.opField_of_selects {o : Opcode} {w : ReqWord} (h : o.selects w = true) : opField w = o.number :=
  ((o.selects_iff w).1 h).1

theorem decode_of_selects {o : Opcode} {w : ReqWord} (h : o.selects w = true) :
    decode w = .ok (o.withFields (aField w) (bField w)) :=
  (decode_eq_ok_iff _ _).2 ⟨o, Opcode.opField_of_selects h, h, rfl⟩

/-- No word has two rows: each row that selects it has its `op` (R54). -/
theorem Opcode.eq_of_selects {o p : Opcode} {w : ReqWord} (ho : o.selects w = true) (hp : p.selects w = true) : p = o :=
  Opcode.number_injective _ _ ((Opcode.opField_of_selects hp).symm.trans (Opcode.opField_of_selects ho))

theorem decodes_iff_selected (w : ReqWord) : (∃ i, decode w = .ok i) ↔ ∃ o : Opcode, o.selects w = true := by
  constructor
  · rintro ⟨i, hi⟩
    obtain ⟨o, -, hs, -⟩ := (decode_eq_ok_iff w i).1 hi
    exact ⟨o, hs⟩
  · rintro ⟨o, hs⟩
    exact ⟨_, decode_of_selects hs⟩

/-! ## What a selected word's unused bits are (R51) -/

theorem Opcode.bField_of_selects {o : Opcode} {w : ReqWord} (h : o.selects w = true)
    (hf : o.format = .N ∨ o.format = .A) : bField w = 0#8 := by
  obtain ⟨-, -, hb⟩ := (o.selects_iff w).1 h
  rcases hf with hf | hf <;> rwa [hf] at hb

theorem Opcode.aField_of_selects {o : Opcode} {w : ReqWord} (h : o.selects w = true)
    (hf : o.format = .N ∨ o.format = .B ∨ o.format = .C) : aField w = 0#16 := by
  obtain ⟨-, ha, -⟩ := (o.selects_iff w).1 h
  refine ha ?_
  rcases hf with hf | hf | hf <;> rw [hf] <;> rfl

/-- `REQ[7:1]` is `b[7:1]`, the bits that format C reserves. -/
theorem reservedBits_eq_zero {w : ReqWord} (h : bField w &&& 0xFE#8 = 0#8) : w.extractLsb' 1 7 = 0#7 := by
  refine BitVec.eq_of_getLsbD_eq fun i hi => ?_
  have masked : (bField w &&& 0xFE#8).getLsbD (i + 1) = false := by rw [h, BitVec.getLsbD_zero]
  have reserved : ∀ j < 7, (0xFE#8).getLsbD (j + 1) = true := by decide
  rw [BitVec.getLsbD_and, reserved i hi, Bool.and_true, bField, BitVec.getLsbD_extractLsb'] at masked
  rw [BitVec.getLsbD_extractLsb', BitVec.getLsbD_zero]
  simpa [show i + 1 < 8 by omega, hi, Nat.add_comm] using masked

theorem reservedBits_of_selects_cfgw {w : ReqWord} (h : Opcode.cfgw.selects w = true) : w.extractLsb' 1 7 = 0#7 := by
  obtain ⟨-, -, hb⟩ := (Opcode.cfgw.selects_iff w).1 h
  exact reservedBits_eq_zero hb

end Sys2Proof

namespace Sys2Proof.Machine

/-! ## Which words are illegal, and what they do (R55) -/

theorem illegalWord_iff_not_selected (w : ReqWord) : IllegalWord w ↔ ∀ o : Opcode, o.selects w ≠ true := by
  rw [← not_exists, ← decodes_iff_selected, not_exists]

theorem illegalWord_of_unknownOp {w : ReqWord} (h : ∀ o : Opcode, o.number ≠ opField w) : IllegalWord w :=
  (illegalWord_iff_not_selected w).2 fun o hs => h o (Opcode.opField_of_selects hs).symm

/-- R55 (a): 239 of the 256 values of `op` have no row. -/
theorem unknownOps_length :
    ((List.range 256).filter (fun n => Opcode.all.all (fun o => o.number.toNat != n))).length = 239 := by
  decide +kernel

/-- Only the row of a word's `op` could select it. -/
theorem illegalWord_of_op {w : ReqWord} {o : Opcode} (h : opField w = o.number) (hs : o.selects w ≠ true) :
    IllegalWord w := by
  refine (illegalWord_iff_not_selected w).2 fun p hp => hs ?_
  obtain rfl : p = o := Opcode.number_injective _ _ ((Opcode.opField_of_selects hp).symm.trans h)
  exact hp

/-- R19: the oldest event, here a request word, is taken and run. -/
theorem step_request {s : State} {w : ReqWord} {rest : List PortEvent} (h : s.inputs = .request w :: rest) :
    step s = runRequest w { s with inputs := rest } := by
  rw [step, h]
  rfl

/-- Settles O33: selection by the model's `selects`, which is the mask and match of R54. -/
theorem wordsDecodeByMaskAndMatch : Obligations.WordsDecodeByMaskAndMatch := by
  intro w
  simp only [← Opcode.selects_iff_mask_match, Opcode.mem_all, true_and, forall_const]
  exact ⟨decodes_iff_selected w, fun o ho => ⟨decode_of_selects ho, fun p hp => Opcode.eq_of_selects ho hp⟩⟩

/-- Settles O38: an illegal word raises IllegalRequest, and each kind of R55 keeps the only possible row from selecting. -/
theorem illegalWordRaisesIllegalRequest : Obligations.IllegalWordRaisesIllegalRequest := by
  refine ⟨fun s w rest hs hw => ?_, fun w h => illegalWord_of_unknownOp fun o => h o o.mem_all, unknownOps_length,
    fun w o ho => ⟨fun hb hf => ?_, fun ha hf => ?_, fun hr hc => ?_⟩,
    illegalWord_of_unknownOp fun o => ?_, illegalWord_of_unknownOp fun o => ?_⟩
  · rw [step_request hs, runRequest_of_illegal hw]
    rfl
  · exact illegalWord_of_op ho fun hs => hb (Opcode.bField_of_selects hs hf)
  · exact illegalWord_of_op ho fun hs => ha (Opcode.aField_of_selects hs hf)
  · subst hc
    exact illegalWord_of_op ho fun hs => hr (reservedBits_of_selects_cfgw hs)
  · cases o <;> decide
  · cases o <;> decide

/-- Settles O31: the rows by evaluation; a word that no row's mask and match select decodes to no request. -/
theorem opcodeMapIsTheTable : Obligations.OpcodeMapIsTheTable := by
  refine ⟨by decide, fun a b => rfl, by decide, fun w h => ?_⟩
  exact (illegalWord_iff_not_selected w).2 fun o hs => h o o.mem_all ((o.selects_iff_mask_match w).1 hs)

end Sys2Proof.Machine
end

section
/-! The CRC-8 unit: verify and the requests CRC8 and CRC8V (40_crc8.md R74, R76, R77). -/

namespace Sys2Proof

/-! ## Decoding a word of format A or AB (R51, R54, R55) -/

theorem Opcode.selects_iff_of_format_A {o : Opcode} {w : ReqWord} (h : opField w = o.number) (hf : o.format = .A) :
    o.selects w = true ↔ bField w = 0#8 := by
  simp [o.selects_iff w, h, hf, Format.usesA]

theorem Opcode.selects_of_format_AB {o : Opcode} {w : ReqWord} (h : opField w = o.number) (hf : o.format = .AB) :
    o.selects w = true := by
  simp [o.selects_iff w, h, hf, Format.usesA]

theorem Opcode.rejectName_of_format_A {o : Opcode} {w : ReqWord} (hf : o.format = .A) : o.rejectName w = .nonzeroB := by
  simp [Opcode.rejectName, hf, Format.usesA]

/-- A format A word is its row's request exactly when `b` is 0; a nonzero `b` is R55 (b). -/
theorem decode_of_format_A {o : Opcode} {w : ReqWord} (h : opField w = o.number) (hf : o.format = .A) :
    (bField w = 0#8 → decode w = .ok (o.withFields (aField w) (bField w))) ∧
    (bField w ≠ 0#8 → decode w = .error .nonzeroB) := by
  refine ⟨fun hb => decode_of_selects ((Opcode.selects_iff_of_format_A h hf).2 hb), fun hb => ?_⟩
  rw [decode_of_op o w h, if_neg (mt (Opcode.selects_iff_of_format_A h hf).1 hb), Opcode.rejectName_of_format_A hf]

/-- Every format AB word is its row's request. -/
theorem decode_of_format_AB {o : Opcode} {w : ReqWord} (h : opField w = o.number) (hf : o.format = .AB) :
    decode w = .ok (o.withFields (aField w) (bField w)) :=
  decode_of_selects (Opcode.selects_of_format_AB h hf)

end Sys2Proof

namespace Sys2Proof.Machine

/-! ## verify (R74) -/

theorem verify_iff (b0 b1 crc : Byte) : verify b0 b1 crc = true ↔ crc8 b0 b1 = crc := beq_iff_eq

/-- Settles O6: `verify` is equality with the one value `crc8 b0 b1`. -/
theorem verifyAcceptsExactlyOneByte : Obligations.VerifyAcceptsExactlyOneByte := fun b0 b1 =>
  ⟨verify_iff b0 b1, crc8 b0 b1, (verify_iff _ _ _).2 rfl, fun _ h => ((verify_iff _ _ _).1 h).symm⟩

/-! ## CRC8 (R76) -/

theorem exec_crc8_eq_answer (a : Word) (s : State) : exec (.crc8 a) s = answer (zext16 (crcWord a)) s := rfl

theorem exec_crc8_eq_next (a : Word) (s : State) :
    exec (.crc8 a) s = .next { s with responses := s.responses ++ [(crcWord a).setWidth 32] } := by
  rw [exec_crc8_eq_answer, answer, State.respond, rspWord_ok_byte]

/-- The values R76 lists for its corners. -/
theorem crc8_corner_values :
    crc8 0x00#8 0x00#8 = 0x81#8 ∧ crc8 0xFF#8 0x00#8 = 0x00#8 ∧ crc8 0xBE#8 0xEF#8 = 0x92#8 := by
  decide +kernel

/-- Settles O9: CRC8 is a row of format A, its result is the CRC of its word, and the corner values are computed. -/
theorem crc8RequestComputesCrc : Obligations.Crc8RequestComputesCrc := by
  exact ⟨fun w hop => decode_of_format_A (o := .crc8) hop rfl, exec_crc8_eq_next, crc8_corner_values⟩

/-! ## CRC8V (R77) -/

/-- The `val` of a verification, as the response word carries it. -/
theorem boolVal_verify_setWidth (b0 b1 crc : Byte) :
    (boolVal (verify b0 b1 crc)).setWidth 32 = if crc8 b0 b1 = crc then 0x00000001#32 else 0x00000000#32 := by
  by_cases h : crc8 b0 b1 = crc <;> simp [boolVal, verify, h]

theorem exec_crc8v_eq_answer (a : Word) (b : Byte) (s : State) :
    exec (.crc8v a b) s = answer (boolVal (verify (hiByte a) (loByte a) b)) s := rfl

theorem exec_crc8v_eq_next (a : Word) (b : Byte) (s : State) :
    exec (.crc8v a b) s =
      .next { s with responses := s.responses ++ [if crcWord a = b then 0x00000001#32 else 0x00000000#32] } := by
  rw [exec_crc8v_eq_answer, answer_eq, boolVal_verify_setWidth, crcWord]

/-- The answer 1 is given for the CRC of the word and for no other byte. -/
theorem exec_crc8v_answers_one_iff (a : Word) (b : Byte) (s : State) :
    exec (.crc8v a b) s = .next { s with responses := s.responses ++ [0x00000001#32] } ↔ crcWord a = b := by
  rw [exec_crc8v_eq_next]
  by_cases h : crcWord a = b <;> simp [h]

/-- Settles O10: CRC8V is a row of format AB, and the one byte it answers 1 for is the CRC of its word. -/
theorem crc8vRequestVerifies : Obligations.Crc8vRequestVerifies := by
  refine ⟨fun w hop => decode_of_format_AB (o := .crc8v) hop rfl, exec_crc8v_eq_next, fun a s => ?_⟩
  exact ⟨crcWord a, (exec_crc8v_answers_one_iff a _ s).2 rfl,
    fun b hb => ((exec_crc8v_answers_one_iff a b s).1 hb).symm⟩

end Sys2Proof.Machine
end

section
/-! The frame serializer: encode and frame, and the requests ENC and FRAME (41_serializer.md R80, R81, R83, R84). -/

namespace Sys2Proof

/-! ## Words of format N (R51, R54) -/

/-- The mask of format N covers the whole word. -/
theorem Opcode.selects_iff_of_format_N {o : Opcode} (hf : o.format = .N) (w : ReqWord) :
    o.selects w = true ↔ w = o.matchWord := by
  have whole : w &&& o.mask = w := by
    rw [Opcode.mask, hf]
    exact BitVec.and_allOnes
  rw [Opcode.selects_iff_mask_match, whole]

/-- A format N row has one legal word, its match; every other word of its `op` is illegal (R55). -/
theorem illegalWord_of_format_N {o : Opcode} (hf : o.format = .N) {w : ReqWord} (h : opField w = o.number)
    (hw : w ≠ o.matchWord) : Machine.IllegalWord w :=
  Machine.illegalWord_of_op h (mt (Opcode.selects_iff_of_format_N hf w).1 hw)

end Sys2Proof

namespace Sys2Proof.Machine

/-! ## encode (R80) -/

theorem encodeWords_append (ws vs : List Word) : encodeWords (ws ++ vs) = encodeWords ws ++ encodeWords vs :=
  List.flatMap_append

theorem encodeWords_length (ws : List Word) : (encodeWords ws).length = 3 * ws.length := by
  induction ws with
  | nil => rfl
  | cons w ws ih =>
    rw [encodeWords_cons]
    simp only [List.length_cons, ih]
    omega

/-- Wire-word `k` of `encode(W)` is the wire-word of word `k`. -/
theorem encodeWords_wireWord {ws : List Word} {k : Nat} {w : Word} (h : ws[k]? = some w) :
    (encodeWords ws)[3 * k]? = some (hiByte w) ∧ (encodeWords ws)[3 * k + 1]? = some (loByte w) ∧
    (encodeWords ws)[3 * k + 2]? = some (crcWord w) := by
  induction ws generalizing k with
  | nil => cases h
  | cons v ws ih =>
    rw [encodeWords_cons]
    cases k with
    | zero =>
      cases h
      exact ⟨rfl, rfl, rfl⟩
    | succ k => exact ih h

/-- Settles O19: the layout by induction on the words, three bytes a word. -/
theorem encodeLaysOutWireWords : Obligations.EncodeLaysOutWireWords :=
  ⟨fun _ _ _ h => encodeWords_wireWord h, encodeWords_length, encodeWords_nil, encodeWords_append⟩

/-! ## frame (R81) -/

theorem frameBytes_false (cmd : Word) (ws : List Word) :
    frameBytes cmd ws false = [hiByte cmd, loByte cmd] ++ encodeWords ws := rfl

theorem frameBytes_true (cmd : Word) (ws : List Word) :
    frameBytes cmd ws true = [hiByte cmd, loByte cmd, crcWord cmd] ++ encodeWords ws := rfl

theorem frameBytes_true_eq_encodeWords (cmd : Word) (ws : List Word) :
    frameBytes cmd ws true = encodeWords ([cmd] ++ ws) := by
  rw [frameBytes_true, encodeWords_append, encodeWords_cons, encodeWords_nil]

theorem frameBytes_nil_false (cmd : Word) : frameBytes cmd [] false = [hiByte cmd, loByte cmd] := by
  rw [frameBytes_false, encodeWords_nil, List.append_nil]

theorem frameBytes_length (cmd : Word) (ws : List Word) (c : Bool) :
    (frameBytes cmd ws c).length = headLength c + 3 * ws.length := by
  rw [frameBytes_head, encodeWords_length]

/-- Settles O20: the frame for each value of the option bit; with the bit 1 the command is a first word of the encoding. -/
theorem frameIsHeadThenEncodedWords : Obligations.FrameIsHeadThenEncodedWords := fun cmd ws =>
  ⟨frameBytes_false cmd ws, frameBytes_true cmd ws, frameBytes_true_eq_encodeWords cmd ws, frameBytes_nil_false cmd⟩

/-! ## Answering with a frame in WIRE (R83, R84) -/

/-- How a codec request ends that puts `bs` in WIRE and answers its length `m`. -/
theorem answer_putFrame (s : State) {bs : List Byte} {m : Nat} (hl : bs.length = m) (hm : m ≤ 65535) :
    ∃ t, answer (natVal m) (s.putFrame bs) = .next t ∧
      t = { s with wire := t.wire, wireLen := natVal m, responses := s.responses ++ [(natVal m).setWidth 32] } ∧
      t.wireLen.toNat = m ∧ t.WireIs bs := by
  subst hl
  exact ⟨_, answer_eq _ _, rfl, natVal_toNat _ hm, s.putFrame_wireIs bs hm⟩

/-! ## ENC (R83) -/

theorem exec_enc_eq (s : State) : exec .enc s = execEnc s := rfl

theorem State.Inv.exec_enc {s : State} (hs : s.Inv) {ws : List Word} (hw : s.RawIs ws) :
    exec .enc s = answer (natVal (3 * s.rawLen.toNat)) (s.putFrame (encodeWords ws)) := by
  rw [exec_enc_eq, execEnc, (hs.rawWords_of_rawIs hw).1, withCells_some]

/-- Settles O24: the words read are those of RAW, and the bytes of their encoding fit a 16-bit count. -/
theorem encSerializesRaw : Obligations.EncSerializesRaw := by
  refine ⟨decode_of_selects (o := .enc) rfl, fun w hop => illegalWord_of_format_N (o := .enc) rfl hop,
    fun s ws hs hw => ?_⟩
  have hraw := hs.1
  have hcap := capacity_bounds s
  have hlen : (encodeWords ws).length = 3 * s.rawLen.toNat := by
    rw [encodeWords_length, (hs.rawWords_of_rawIs hw).2]
  rw [hs.exec_enc hw]
  exact answer_putFrame s hlen (by omega)

/-! ## FRAME (R84) -/

theorem exec_frame_eq (cmd : Word) (s : State) : exec (.frame cmd) s = execFrame cmd s := rfl

theorem headLength_bounds (c : Bool) : 2 ≤ headLength c ∧ headLength c ≤ 3 := by
  cases c <;> decide

/-- With either head, a frame is too long exactly when RAW is full. -/
theorem State.Inv.frame_overflows_iff {s : State} (hs : s.Inv) :
    headLength s.cmdCrc + 3 * s.rawLen.toNat > 3 * s.nw.val ↔ s.rawLen.toNat = s.nw.val := by
  have hraw := hs.1
  have hhead := headLength_bounds s.cmdCrc
  omega

theorem State.Inv.exec_frame_of_full {s : State} (hs : s.Inv) (cmd : Word) (hfull : s.rawLen.toNat = s.nw.val) :
    exec (.frame cmd) s = raise .overflow 0#16 s := by
  rw [exec_frame_eq, execFrame, if_pos (hs.frame_overflows_iff.2 hfull)]

theorem State.Inv.exec_frame_of_room {s : State} (hs : s.Inv) {ws : List Word} (hw : s.RawIs ws) (cmd : Word)
    (hroom : s.rawLen.toNat ≠ s.nw.val) :
    exec (.frame cmd) s =
      answer (natVal (headLength s.cmdCrc + 3 * s.rawLen.toNat)) (s.putFrame (frameBytes cmd ws s.cmdCrc)) := by
  rw [exec_frame_eq, execFrame, if_neg (mt hs.frame_overflows_iff.1 hroom), (hs.rawWords_of_rawIs hw).1, withCells_some]

/-- Settles O25: FRAME is a row of format A; a full RAW is the one case too long for WIRE, and a frame that fits is put
there whole. -/
theorem frameBuildsOrOverflows : Obligations.FrameBuildsOrOverflows := by
  refine ⟨fun w hop => decode_of_format_A (o := .frame) hop rfl, fun s ws cmd h hs hw hh => ?_⟩
  obtain rfl : h = headLength s.cmdCrc := hh
  refine ⟨fun hfull => ?_, fun hroom => ?_⟩
  · rw [hs.exec_frame_of_full cmd hfull, raise_eq]
    rfl
  · have hcap := capacity_bounds s
    have hhead := headLength_bounds s.cmdCrc
    have hlen : (frameBytes cmd ws s.cmdCrc).length = headLength s.cmdCrc + 3 * s.rawLen.toNat := by
      rw [frameBytes_length, (hs.rawWords_of_rawIs hw).2]
    rw [hs.exec_frame_of_room hw cmd (Nat.ne_of_lt hroom)]
    exact answer_putFrame s hlen (by omega)

end Sys2Proof.Machine
end

section
/-! The frame deserializer: decode and the request DEC (42_deserializer.md R90, R91, R93). -/

namespace Sys2Proof.Machine

/-! ## The wire-words of a byte sequence (R56, R90) -/

/-- Wire-word `k` of `bs` passes its check (R90). Said only of a whole wire-word: past the end, `!` reads 0. -/
def WireWordPasses (bs : List Byte) (k : Nat) : Prop := crc8 bs[3 * k]! bs[3 * k + 1]! = bs[3 * k + 2]!

/-- The word that wire-word `k` of `bs` carries (R90). -/
def carriedWord (bs : List Byte) (k : Nat) : Word := joinBytes bs[3 * k]! bs[3 * k + 1]!

theorem exists_wireWord {bs : List Byte} (h : 2 < bs.length) : ∃ hi lo crc rest, bs = hi :: lo :: crc :: rest := by
  match bs, h with
  | hi :: lo :: crc :: rest, _ => exact ⟨hi, lo, crc, rest, rfl⟩

theorem wireWordPasses_zero (hi lo crc : Byte) (rest : List Byte) :
    WireWordPasses (hi :: lo :: crc :: rest) 0 ↔ crc8 hi lo = crc := Iff.rfl

theorem wireWordPasses_succ (hi lo crc : Byte) (rest : List Byte) (k : Nat) :
    WireWordPasses (hi :: lo :: crc :: rest) (k + 1) ↔ WireWordPasses rest k := Iff.rfl

theorem carriedWords_cons (hi lo crc : Byte) (rest : List Byte) (n : Nat) :
    (List.range (n + 1)).map (carriedWord (hi :: lo :: crc :: rest)) =
      joinBytes hi lo :: (List.range n).map (carriedWord rest) := by
  rw [List.range_succ_eq_map, List.map_cons, List.map_map]
  rfl

/-! ## decode (R90, R91) -/

/-- The first wire-word that does not pass is the one reported, whatever comes after it. -/
theorem decodeFrom_first_failure {bs : List Byte} {k : Nat} (hk : 3 * k + 2 < bs.length) (hbad : ¬ WireWordPasses bs k)
    (hgood : ∀ j < k, WireWordPasses bs j) (i : Nat) : decodeFrom i bs = .error (.checksum (i + k)) := by
  induction k generalizing bs i with
  | zero =>
    obtain ⟨hi, lo, crc, rest, rfl⟩ := exists_wireWord hk
    rw [decodeFrom_cons, if_neg (mt (wireWordPasses_zero hi lo crc rest).2 hbad), Nat.add_zero]
  | succ k ih =>
    obtain ⟨hi, lo, crc, rest, rfl⟩ := exists_wireWord (by omega : 2 < bs.length)
    have hrest : 3 * k + 2 < rest.length := by
      simp only [List.length_cons] at hk
      omega
    have hfirst := (wireWordPasses_zero hi lo crc rest).1 (hgood 0 k.succ_pos)
    have htail := ih hrest (mt (wireWordPasses_succ hi lo crc rest k).2 hbad)
      (fun j hj => (wireWordPasses_succ hi lo crc rest j).1 (hgood (j + 1) (Nat.succ_lt_succ hj))) (i + 1)
    rw [decodeFrom_cons, if_pos hfirst, htail, Nat.add_right_comm, Nat.add_assoc]
    rfl

/-- When each of `n` wire-words passes, the words they carry are delivered in order. -/
theorem decodeFrom_all_pass {bs : List Byte} {n : Nat} (hn : bs.length = 3 * n) (hgood : ∀ k < n, WireWordPasses bs k)
    (i : Nat) : decodeFrom i bs = .ok ((List.range n).map (carriedWord bs)) := by
  induction n generalizing bs i with
  | zero =>
    obtain rfl := List.eq_nil_of_length_eq_zero hn
    exact decodeFrom_nil i
  | succ n ih =>
    obtain ⟨hi, lo, crc, rest, rfl⟩ := exists_wireWord (by omega : 2 < bs.length)
    have hrest : rest.length = 3 * n := by
      simp only [List.length_cons] at hn
      omega
    have hfirst := (wireWordPasses_zero hi lo crc rest).1 (hgood 0 n.succ_pos)
    have htail := ih hrest
      (fun k hk => (wireWordPasses_succ hi lo crc rest k).1 (hgood (k + 1) (Nat.succ_lt_succ hk))) (i + 1)
    rw [decodeFrom_cons, if_pos hfirst, htail, carriedWords_cons]
    rfl

theorem decodeBytes_first_failure {bs : List Byte} (hmod : bs.length % 3 = 0) {k : Nat} (hk : k < bs.length / 3)
    (hbad : ¬ WireWordPasses bs k) (hgood : ∀ j < k, WireWordPasses bs j) :
    decodeBytes bs = .error (.checksum k) := by
  rw [decodeBytes_of_mod bs hmod, decodeFrom_first_failure (by omega) hbad hgood, Nat.zero_add]

theorem decodeBytes_all_pass {bs : List Byte} (hmod : bs.length % 3 = 0)
    (hgood : ∀ k < bs.length / 3, WireWordPasses bs k) :
    decodeBytes bs = .ok ((List.range (bs.length / 3)).map (carriedWord bs)) := by
  rw [decodeBytes_of_mod bs hmod, decodeFrom_all_pass (by omega) hgood]

theorem carriedWord_eq_ofNat (bs : List Byte) :
    carriedWord bs = fun k => BitVec.ofNat 16 (bs[3 * k]!.toNat * 256 + bs[3 * k + 1]!.toNat) :=
  funext fun _ => joinBytes_eq_ofNat _ _

/-- Settles O22: the length is tested first; then the wire-words one at a time, each either reported or delivered. -/
theorem decodeFindsFirstFailure : Obligations.DecodeFindsFirstFailure := by
  refine fun bs => ⟨decodeBytes_framing bs, fun hmod => ⟨fun k hk hbad hgood => ?_, fun hgood => ?_⟩⟩
  · exact decodeBytes_first_failure hmod hk hbad hgood
  · rw [decodeBytes_all_pass hmod hgood, carriedWord_eq_ofNat]

/-! ## The wire-words of the wire buffer (R56, R93) -/

/-- The three bytes of a whole wire-word, where the buffer holds `bs`. -/
theorem State.WireIs.wireWord {s : State} {bs : List Byte} (hw : s.WireIs bs) {k : Nat} (hk : 3 * k + 2 < bs.length) :
    s.wireCell (3 * k) = some bs[3 * k]! ∧ s.wireCell (3 * k + 1) = some bs[3 * k + 1]! ∧
    s.wireCell (3 * k + 2) = some bs[3 * k + 2]! := by
  have cell : ∀ i < bs.length, s.wireCell i = some bs[i]! := fun i hi => by
    rw [hw i, List.getElem?_eq_getElem hi, getElem!_pos bs i hi]
  exact ⟨cell _ (by omega), cell _ (by omega), cell _ hk⟩

theorem State.WireIs.wireWordValid_iff {s : State} {bs : List Byte} (hw : s.WireIs bs) {k : Nat}
    (hk : 3 * k + 2 < bs.length) : s.WireWordValid k ↔ WireWordPasses bs k := by
  obtain ⟨hhi, hlo, hcrc⟩ := hw.wireWord hk
  constructor
  · rintro ⟨hi, lo, crc, h0, h1, h2, hcheck⟩
    obtain rfl := Option.some.inj (hhi.symm.trans h0)
    obtain rfl := Option.some.inj (hlo.symm.trans h1)
    obtain rfl := Option.some.inj (hcrc.symm.trans h2)
    exact hcheck
  · exact fun hpass => ⟨_, _, _, hhi, hlo, hcrc, hpass⟩

/-! ## DEC (R93) -/

theorem exec_dec_eq (s : State) : exec .dec s = execDec s := rfl

/-- `RAWLEN <- 0` leaves no cell of RAW (R11). -/
theorem State.setRawLen_zero (s : State) : s.setRawLen 0#16 = { s with raw := [], rawLen := 0#16 } := by
  rw [State.setRawLen, show (0#16).toNat = 0 from rfl, Cells.below_zero]

/-- How a request ends that puts `ws` in RAW and answers their number `n`. -/
theorem answer_putWords (s : State) {ws : List Word} {n : Nat} (hl : ws.length = n) (hn : n ≤ 65535) :
    ∃ t, answer (natVal n) (s.putWords ws) = .next t ∧
      t = { s with raw := t.raw, rawLen := natVal n, responses := s.responses ++ [(natVal n).setWidth 32] } ∧
      t.rawLen.toNat = n ∧ t.RawIs ws := by
  subst hl
  exact ⟨_, answer_eq _ _, rfl, natVal_toNat _ hn, s.putWords_rawIs ws hn⟩

section
variable {s : State} (hs : s.Inv) {bs : List Byte} (hw : s.WireIs bs)
include hs hw

theorem State.Inv.exec_dec_framing (hd : decodeBytes bs = .error .framing) :
    exec .dec s = raise .framing 0#16 (s.setRawLen 0#16) := by
  rw [exec_dec_eq, execDec, (hs.wireBytes_of_wireIs hw).1, withCells_some, hd]

theorem State.Inv.exec_dec_checksum {k : Nat} (hd : decodeBytes bs = .error (.checksum k)) :
    exec .dec s = raise .checksum (natVal k) (s.setRawLen 0#16) := by
  rw [exec_dec_eq, execDec, (hs.wireBytes_of_wireIs hw).1, withCells_some, hd]

theorem State.Inv.exec_dec_words {ws : List Word} (hd : decodeBytes bs = .ok ws) :
    exec .dec s = answer (natVal ws.length) (s.putWords ws) := by
  rw [exec_dec_eq, execDec, (hs.wireBytes_of_wireIs hw).1, withCells_some, hd]

end

/-- Settles O26: DEC decodes the bytes of WIRE; each outcome of decode gives one clause, and the words fit RAW. -/
theorem decExtractsOrFails : Obligations.DecExtractsOrFails := by
  refine ⟨decode_of_selects (o := .dec) rfl, fun w hop => illegalWord_of_format_N (o := .dec) rfl hop, fun s hs => ?_⟩
  obtain ⟨bs, hlen, hw, -⟩ := hs.exists_wireIs
  rw [← hlen]
  have valid : bs.length % 3 = 0 → ∀ k < bs.length / 3, (s.WireWordValid k ↔ WireWordPasses bs k) :=
    fun hmod k hk => hw.wireWordValid_iff (by omega)
  refine ⟨fun hmod => ?_, fun hmod k hk hbad hgood => ?_, fun hmod hgood => ?_⟩
  · rw [hs.exec_dec_framing hw (decodeBytes_framing bs hmod), State.setRawLen_zero, raise_eq]
    rfl
  · have hd : decodeBytes bs = .error (.checksum k) :=
      decodeBytes_first_failure hmod hk (mt (valid hmod k hk).2 hbad)
        fun j hj => (valid hmod j (hj.trans hk)).1 (hgood j hj)
    rw [hs.exec_dec_checksum hw hd, State.setRawLen_zero, raise_eq]
    rfl
  · have hd := decodeBytes_all_pass hmod fun k hk => (valid hmod k hk).1 (hgood k hk)
    have hcount : ((List.range (bs.length / 3)).map (carriedWord bs)).length = bs.length / 3 := by
      rw [List.length_map, List.length_range]
    have ⟨_, hwire, _⟩ := hs
    have hcap := capacity_bounds s
    obtain ⟨t, hans, ht, hn, hraw⟩ := answer_putWords s hcount (by omega)
    refine ⟨t, by rw [hs.exec_dec_words hw hd, hcount, hans], ht, hn, fun k hk => ?_, fun k hk => ?_⟩
    · obtain ⟨hhi, hlo, -⟩ := hw.wireWord (k := k) (by omega)
      refine ⟨_, _, hhi, hlo, ?_⟩
      rw [hraw k, List.getElem?_map, List.getElem?_range hk, Option.map_some, carriedWord_eq_ofNat]
    · exact State.rawCell_of_rawLen_le (hn.trans_le hk)

end Sys2Proof.Machine
end

section
/-! The buffer requests WCLR, WPUSH, WGET, WLEN and BCLR, BPUSH, BGET, BLEN (43_buffer_access.md R100 to R107). -/

namespace Sys2Proof

/-! ## Decoding a word of format B (R51, R54, R55) -/

theorem Opcode.selects_iff_of_format_B {o : Opcode} {w : ReqWord} (h : opField w = o.number) (hf : o.format = .B) :
    o.selects w = true ↔ aField w = 0#16 := by
  simp [o.selects_iff w, h, hf, Format.usesA]

theorem Opcode.rejectName_of_format_B {o : Opcode} {w : ReqWord} (hf : o.format = .B) (ha : aField w ≠ 0#16) :
    o.rejectName w = .nonzeroA := by
  simp [Opcode.rejectName, hf, ha, Format.usesA]

/-- A format B word is its row's request exactly when `a` is 0; a nonzero `a` is R55 (c). -/
theorem decode_of_format_B {o : Opcode} {w : ReqWord} (h : opField w = o.number) (hf : o.format = .B) :
    (aField w = 0#16 → decode w = .ok (o.withFields (aField w) (bField w))) ∧
    (aField w ≠ 0#16 → decode w = .error .nonzeroA) := by
  refine ⟨fun ha => decode_of_selects ((Opcode.selects_iff_of_format_B h hf).2 ha), fun ha => ?_⟩
  rw [decode_of_op o w h, if_neg (mt (Opcode.selects_iff_of_format_B h hf).1 ha), Opcode.rejectName_of_format_B hf ha]

end Sys2Proof

namespace Sys2Proof.Machine

variable {s : State}

/-! ## WPUSH (R101) -/

theorem exec_wpush_of_full (a : Word) (hfull : s.rawLen.toNat = s.nw.val) :
    exec (.wpush a) s = raise .overflow 0#16 s := if_pos hfull

theorem exec_wpush_of_room (a : Word) (hroom : s.rawLen.toNat < s.nw.val) :
    exec (.wpush a) s =
      answer (s.rawLen + 1#16) ((s.writeRaw s.rawLen.toNat [a]).setRawLen (s.rawLen + 1#16)) := if_neg hroom.ne

/-- Settles O12: WPUSH is a row of format A; below the capacity the new count fits 16 bits, so the word is stored at the
old one. -/
theorem wpushAppendsOrOverflows : Obligations.WpushAppendsOrOverflows := by
  refine ⟨fun w hop => decode_of_format_A (o := .wpush) hop rfl, fun s a _ => ⟨fun hfull => ?_, fun hroom => ?_⟩⟩
  · rw [exec_wpush_of_full a hfull, raise_eq]
    rfl
  · have hcap := capacity_bounds s
    have hfits : s.rawLen.toNat < 65535 := by omega
    rw [exec_wpush_of_room a hroom]
    exact ⟨_, answer_eq _ _, rfl, succ_toNat _ hfits, s.rawCell_push a hfits⟩

/-! ## WGET (R102) -/

theorem exec_wget_of_rawLen_le {a : Word} (h : s.rawLen.toNat ≤ a.toNat) :
    exec (.wget a) s = raise .range 0#16 s := if_pos (BitVec.le_def.2 h)

theorem exec_wget_of_lt_rawLen {a : Word} (h : a.toNat < s.rawLen.toNat) :
    exec (.wget a) s = withCells (s.rawCell a.toNat) (fun w => answer w s) :=
  if_neg (mt BitVec.le_def.1 (Nat.not_le_of_lt h))

/-- Settles O13: WGET is a row of format A; under the invariant every cell below RAWLEN holds a word. -/
theorem wgetReadsOrRangeError : Obligations.WgetReadsOrRangeError := by
  refine ⟨fun w hop => decode_of_format_A (o := .wget) hop rfl, fun s a hs => ⟨fun hlt => ?_, fun hle => ?_⟩⟩
  · obtain ⟨w, hw⟩ := Option.isSome_iff_exists.1 ((hs.rawCell_isSome _).2 hlt)
    exact ⟨w, hw, by rw [exec_wget_of_lt_rawLen hlt, hw, withCells_some, answer_eq]⟩
  · rw [exec_wget_of_rawLen_le hle, raise_eq]
    rfl

/-! ## BPUSH (R105) -/

theorem exec_bpush_of_full (b : Byte) (hfull : s.wireLen.toNat = 3 * s.nw.val) :
    exec (.bpush b) s = raise .overflow 0#16 s := if_pos hfull

theorem exec_bpush_of_room (b : Byte) (hroom : s.wireLen.toNat < 3 * s.nw.val) :
    exec (.bpush b) s =
      answer (s.wireLen + 1#16) ((s.memWrite1 s.wireLen.toNat b).setWireLen (s.wireLen + 1#16)) := if_neg hroom.ne

/-- Settles O16: BPUSH is a row of format B; below `3*NW`, at most 65535, the new count fits 16 bits, so the byte is stored
at the old one. -/
theorem bpushAppendsOrOverflows : Obligations.BpushAppendsOrOverflows := by
  refine ⟨fun w hop => decode_of_format_B (o := .bpush) hop rfl, fun s b _ => ⟨fun hfull => ?_, fun hroom => ?_⟩⟩
  · rw [exec_bpush_of_full b hfull, raise_eq]
    rfl
  · have hcap := capacity_bounds s
    have hfits : s.wireLen.toNat < 65535 := by omega
    rw [exec_bpush_of_room b hroom]
    exact ⟨_, answer_eq _ _, rfl, succ_toNat _ hfits, s.wireCell_push b hfits⟩

/-! ## BGET (R106) -/

theorem exec_bget_of_wireLen_le {a : Word} (h : s.wireLen.toNat ≤ a.toNat) :
    exec (.bget a) s = raise .range 0#16 s := if_pos (BitVec.le_def.2 h)

theorem exec_bget_of_lt_wireLen {a : Word} (h : a.toNat < s.wireLen.toNat) :
    exec (.bget a) s = withCells (s.wireCell a.toNat) (fun b => answer (zext16 b) s) :=
  if_neg (mt BitVec.le_def.1 (Nat.not_le_of_lt h))

/-- `return zext_16(b)`: the byte, zero-extended to the response word. -/
theorem answer_zext16 (b : Byte) (s : State) :
    answer (zext16 b) s = .next { s with responses := s.responses ++ [b.setWidth 32] } := by
  rw [answer, State.respond, rspWord_ok_byte]

/-- Settles O17: BGET is a row of format A; under the invariant every cell below WIRELEN holds a byte. -/
theorem bgetReadsOrRangeError : Obligations.BgetReadsOrRangeError := by
  refine ⟨fun w hop => decode_of_format_A (o := .bget) hop rfl, fun s a hs => ⟨fun hlt => ?_, fun hle => ?_⟩⟩
  · obtain ⟨b, hb⟩ := Option.isSome_iff_exists.1 ((hs.wireCell_isSome _).2 hlt)
    exact ⟨b, hb, by rw [exec_bget_of_lt_wireLen hlt, hb, withCells_some, answer_zext16]⟩
  · rw [exec_bget_of_wireLen_le hle, raise_eq]
    rfl

/-! ## WCLR and BCLR (R100, R104) -/

/-- `WIRELEN <- 0` leaves no cell of WIRE (R13). -/
theorem State.setWireLen_zero (s : State) : s.setWireLen 0#16 = { s with wire := [], wireLen := 0#16 } := by
  rw [State.setWireLen, show (0#16).toNat = 0 from rfl, Cells.below_zero]

theorem exec_wclr_eq (s : State) : exec .wclr s = answer 0#16 (s.setRawLen 0#16) := rfl

theorem exec_bclr_eq (s : State) : exec .bclr s = answer 0#16 (s.setWireLen 0#16) := rfl

/-- Settles O11: WCLR is a row of format N, and a fill count of 0 leaves no cell. -/
theorem wclrEmptiesRaw : Obligations.WclrEmptiesRaw := by
  refine ⟨decode_of_selects (o := .wclr) rfl, fun w hop => illegalWord_of_format_N (o := .wclr) rfl hop, fun s => ?_⟩
  rw [exec_wclr_eq, State.setRawLen_zero, answer_eq]
  rfl

/-- Settles O15: BCLR is a row of format N, and a fill count of 0 leaves no cell. -/
theorem bclrEmptiesWire : Obligations.BclrEmptiesWire := by
  refine ⟨decode_of_selects (o := .bclr) rfl, fun w hop => illegalWord_of_format_N (o := .bclr) rfl hop, fun s => ?_⟩
  rw [exec_bclr_eq, State.setWireLen_zero, answer_eq]
  rfl

/-! ## WLEN and BLEN (R103, R107) -/

theorem exec_wlen_eq (s : State) : exec .wlen s = answer s.rawLen s := rfl

theorem exec_blen_eq (s : State) : exec .blen s = answer s.wireLen s := rfl

/-- Settles O14: WLEN is a row of format N and answers RAWLEN. -/
theorem wlenReadsFillCount : Obligations.WlenReadsFillCount := by
  refine ⟨decode_of_selects (o := .wlen) rfl, fun w hop => illegalWord_of_format_N (o := .wlen) rfl hop, fun s => ?_⟩
  rw [exec_wlen_eq, answer_eq]

/-- Settles O18: BLEN is a row of format N and answers WIRELEN. -/
theorem blenReadsFillCount : Obligations.BlenReadsFillCount := by
  refine ⟨decode_of_selects (o := .blen) rfl, fun w hop => illegalWord_of_format_N (o := .blen) rfl hop, fun s => ?_⟩
  rw [exec_blen_eq, answer_eq]

end Sys2Proof.Machine
end

section
/-! The system requests STAT, ECLR, CFGR, CFGW (44_system.md R110 to R113). -/

namespace Sys2Proof

/-! ## Decoding a word of format C (R51, R54, R55) -/

/-- `b[7:1]` is 0 exactly when `b` is a single bit, that is below 2. -/
theorem reservedBits_clear_iff : ∀ b : Byte, b &&& 0xFE#8 = 0#8 ↔ b.toNat < 2 := by
  decide +kernel

/-- `REQ[23:1]` is `a` and `b[7:1]` side by side, the bits that format C reserves. -/
theorem reservedOperandBits_eq_zero_iff (w : ReqWord) :
    w.extractLsb' 1 23 = 0#23 ↔ aField w = 0#16 ∧ bField w &&& 0xFE#8 = 0#8 := by
  rw [reservedBits_clear_iff, aField, bField, BitVec.toNat_eq, BitVec.toNat_eq]
  simp only [BitVec.extractLsb'_toNat, BitVec.toNat_ofNat, Nat.shiftRight_eq_div_pow]
  omega

theorem Opcode.selects_iff_of_format_C {o : Opcode} {w : ReqWord} (h : opField w = o.number) (hf : o.format = .C) :
    o.selects w = true ↔ w.extractLsb' 1 23 = 0#23 := by
  simp [o.selects_iff w, h, hf, Format.usesA, reservedOperandBits_eq_zero_iff]

end Sys2Proof

namespace Sys2Proof.Machine

/-! ## STAT and ECLR (R110, R111) -/

/-- Settles O27: STAT is a row of format N and answers the flags of STATUS; under the invariant the other bits are 0. -/
theorem statReadsStatus : Obligations.StatReadsStatus := by
  refine ⟨decode_of_selects (o := .stat) rfl, fun w hop => illegalWord_of_format_N (o := .stat) rfl hop,
    fun s => ⟨?_, State.Inv.status_mask⟩⟩
  rw [exec_stat_eq, State.respond, rspWord_ok]
  rfl

/-- Settles O28: ECLR is a row of format N, and its one write is STATUS. -/
theorem eclrClearsStatus : Obligations.EclrClearsStatus := by
  refine ⟨decode_of_selects (o := .eclr) rfl, fun w hop => illegalWord_of_format_N (o := .eclr) rfl hop, fun s => ?_⟩
  rw [exec_eclr_eq, State.respond, rspWord_ok]
  rfl

/-! ## CFGR (R112) -/

theorem exec_cfgr_eq (s : State) : exec .cfgr s = answer (zext16 s.readCfg) s := rfl

/-- R17: CFG is its option bit. -/
theorem State.Inv.cfg_eq_zero_or_one {s : State} (h : s.Inv) : s.cfg = 0x00#8 ∨ s.cfg = 0x01#8 := by
  rw [← h.cfg_mask, BitVec.and_one_eq_setWidth_ofBool_getLsbD]
  cases s.cfg.getLsbD 0
  · exact .inl rfl
  · exact .inr rfl

/-- Settles O29: CFGR is a row of format N and answers the option bit of CFG; under the invariant the other bits are 0. -/
theorem cfgrReadsConfiguration : Obligations.CfgrReadsConfiguration := by
  refine ⟨decode_of_selects (o := .cfgr) rfl, fun w hop => illegalWord_of_format_N (o := .cfgr) rfl hop,
    fun s => ⟨?_, fun hs => ⟨hs.cfg_mask, hs.cfg_eq_zero_or_one⟩⟩⟩
  rw [exec_cfgr_eq, answer_zext16]
  rfl

/-! ## CFGW (R113) -/

theorem exec_cfgw_of_reserved_clear {b : Byte} (hb : b &&& 0xFE#8 = 0#8) (s : State) :
    exec (.cfgw b) s = answer 0#16 (s.setCfg (bitZero b)) := if_pos hb

theorem optionBit_reserved_clear : ∀ bit : BitVec 1, bit.setWidth 8 &&& 0xFE#8 = 0#8 := by
  decide

theorem bitZero_optionBit : ∀ bit : BitVec 1, bitZero (bit.setWidth 8) = bit.setWidth 8 := by
  decide

/-- Settles O30: CFGW is a row of format C, so `REQ[23:1]` decides whether its word is the request, which stores the option
bit, or illegal. -/
theorem cfgwWritesOptionBit : Obligations.CfgwWritesOptionBit := by
  refine ⟨fun w hop hr => ?_, fun bit s => ?_, fun w s (hop : opField w = Opcode.cfgw.number) hr => ?_⟩
  · exact decode_of_selects ((Opcode.selects_iff_of_format_C (o := .cfgw) hop rfl).2 hr)
  · rw [exec_cfgw_of_reserved_clear (optionBit_reserved_clear bit), bitZero_optionBit, answer_eq]
    rfl
  · have illegal : IllegalWord w :=
      illegalWord_of_op hop (mt (Opcode.selects_iff_of_format_C hop rfl).1 hr)
    rw [runRequest_of_illegal illegal, raise_eq]
    rfl

end Sys2Proof.Machine
end

section
/-! The errors: what a failing request writes, and exactly when each code is answered (60_exceptions.md R140, R143). -/

namespace Sys2Proof

/-- R51, format C: a word that decodes to CFGW has its reserved bits clear. -/
theorem reserved_clear_of_decode_cfgw {w : ReqWord} {b : Byte} (h : decode w = .ok (.cfgw b)) : b &&& 0xFE#8 = 0#8 := by
  obtain ⟨o, -, hs, hi⟩ := (decode_eq_ok_iff w _).1 h
  -- only the row of CFGW gives a `cfgw`, and its operand is the word's `b`
  cases o <;> cases hi
  obtain ⟨-, -, hb⟩ := (Opcode.selects_iff .cfgw w).1 hs
  exact hb

end Sys2Proof

namespace Sys2Proof.Machine

/-! ## The test of each request but DEC (R143) -/

/-- The test by which a request other than `DEC` raises an error, before it writes anything. -/
inductive Raises : Instr → State → ErrorKind → Prop where
  | wpush (a : Word) (s : State) (h : s.rawLen.toNat = s.nw.val) : Raises (.wpush a) s .overflow
  | wget (a : Word) (s : State) (h : s.rawLen ≤ a) : Raises (.wget a) s .range
  | bpush (b : Byte) (s : State) (h : s.wireLen.toNat = 3 * s.nw.val) : Raises (.bpush b) s .overflow
  | bget (a : Word) (s : State) (h : s.wireLen ≤ a) : Raises (.bget a) s .range
  | frame (cmd : Word) (s : State) (h : headLength s.cmdCrc + 3 * s.rawLen.toNat > 3 * s.nw.val) :
      Raises (.frame cmd) s .overflow
  | cfgw (b : Byte) (s : State) (h : b &&& 0xFE#8 ≠ 0#8) : Raises (.cfgw b) s .illegal

/-- Where `o` goes on from `s`, it answers with code `OK`, or it raises an error of `errs` with `val` 0, having written
nothing. -/
def EndsPlainly (s : State) (errs : ErrorKind → Prop) (o : Result) : Prop :=
  ∀ t, o = .next t →
    (∃ val, t.responses = s.responses ++ [rspWord codeOk val]) ∨ ∃ e, errs e ∧ raise e 0#16 s = .next t

section
variable {s : State} {errs : ErrorKind → Prop}

theorem endsPlainly_answer {val : Word} {u : State} (hu : u.responses = s.responses) :
    EndsPlainly s errs (answer val u) := by
  rintro _ ⟨⟩
  exact .inl ⟨val, by rw [State.respond_responses, hu]⟩

theorem endsPlainly_raise {e : ErrorKind} (he : errs e) : EndsPlainly s errs (raise e 0#16 s) :=
  fun _ ht => .inr ⟨e, he, ht⟩

theorem endsPlainly_withCells {α : Type} {c : Option α} {k : α → Result} (h : ∀ x, EndsPlainly s errs (k x)) :
    EndsPlainly s errs (withCells c k) := by
  cases c with
  | none => exact nofun
  | some x => exact h x

theorem endsPlainly_ite {c : Prop} [Decidable c] {a b : Result} (ha : c → EndsPlainly s errs a)
    (hb : ¬ c → EndsPlainly s errs b) : EndsPlainly s errs (if c then a else b) := by
  split
  · exact ha ‹c›
  · exact hb ‹¬ c›

end

/-- Every request but `DEC` writes only when its test passed, and raises with `val` 0. -/
theorem exec_endsPlainly {i : Instr} (hi : i ≠ .dec) (s : State) : EndsPlainly s (Raises i s) (exec i s) := by
  cases i with
  | dec => exact absurd rfl hi
  | crc8 | crc8v | wclr | wlen | bclr | blen | stat | eclr | cfgr => exact endsPlainly_answer rfl
  | enc => exact endsPlainly_withCells fun _ => endsPlainly_answer rfl
  | wpush a => exact endsPlainly_ite (fun h => endsPlainly_raise (.wpush a s h)) fun _ => endsPlainly_answer rfl
  | bpush b => exact endsPlainly_ite (fun h => endsPlainly_raise (.bpush b s h)) fun _ => endsPlainly_answer rfl
  | wget a =>
    exact endsPlainly_ite (fun h => endsPlainly_raise (.wget a s h))
      fun _ => endsPlainly_withCells fun _ => endsPlainly_answer rfl
  | bget a =>
    exact endsPlainly_ite (fun h => endsPlainly_raise (.bget a s h))
      fun _ => endsPlainly_withCells fun _ => endsPlainly_answer rfl
  | frame cmd =>
    exact endsPlainly_ite (fun h => endsPlainly_raise (.frame cmd s h))
      fun _ => endsPlainly_withCells fun _ => endsPlainly_answer rfl
  | cfgw b => exact endsPlainly_ite (fun _ => endsPlainly_answer rfl) fun h => endsPlainly_raise (.cfgw b s h)

/-- The errors of a request word that is not `DEC`: it is illegal, or its request's test fails (R54, R55). -/
theorem runRequest_endsPlainly {w : ReqWord} (hw : decode w ≠ .ok .dec) (s : State) :
    EndsPlainly s (fun e => (IllegalWord w ∧ e = .illegal) ∨ ∃ i, decode w = .ok i ∧ Raises i s e)
      (runRequest w s) := by
  rcases illegal_or_ok w with hill | ⟨i, hd⟩
  · rw [runRequest_of_illegal hill]
    exact endsPlainly_raise (.inl ⟨hill, rfl⟩)
  · rw [runRequest_of_ok hd]
    intro t ht
    refine (exec_endsPlainly (fun h => hw (h ▸ hd)) s t ht).imp_right ?_
    exact fun ⟨e, he, hr⟩ => ⟨e, .inr ⟨i, hd, he⟩, hr⟩

/-! ## Errors are precise (R143) -/

theorem rspWord_zero_val (c : Byte) : rspWord c 0#16 = c.setWidth 32 <<< 24 := BitVec.or_zero

/-- Settles O39: a request but DEC raises on the state it found, with `val` 0; DEC raises on that state with RAW emptied. -/
theorem errorsArePrecise : Obligations.ErrorsArePrecise := by
  intro w s t r h hr hne
  refine ⟨fun hw => ?_, fun hw => ?_⟩
  · rcases runRequest_endsPlainly hw s t h with ⟨val, hok⟩ | ⟨e, -, ⟨⟩⟩
    · obtain rfl := eq_of_append_eq _ _ _ (hr.symm.trans hok)
      exact absurd (rspWord_code _ _) hne
    · obtain rfl : rspWord e.code 0#16 = r := eq_of_append_eq _ _ _ hr
      rw [rspWord_code]
      exact ⟨rfl, rspWord_zero_val _⟩
  · rcases runRequest_next_cases h with ⟨i, u, -, hu, val, rfl⟩ | ⟨e, hnd, -⟩ | ⟨e, -, val, rfl⟩
    · rw [State.respond_responses, hu.outside.1] at hr
      obtain rfl := eq_of_append_eq _ _ _ hr
      exact absurd (rspWord_code _ _) hne
    · exact absurd hw hnd
    · obtain rfl : rspWord e.code val = r := eq_of_append_eq _ _ _ hr
      rw [rspWord_code, rspWord_val, State.setRawLen_zero]
      exact ⟨rfl, rfl⟩

/-! ## Each error has its cause (R140, R141) -/

/-- R140, column `raised by`: the cause of each error. -/
def ErrorCause (w : ReqWord) (s : State) : ErrorKind → Prop
  | .framing => decode w = .ok .dec ∧ s.wireLen.toNat % 3 ≠ 0
  | .checksum => decode w = .ok .dec ∧ s.wireLen.toNat % 3 = 0 ∧ ∃ k, k < s.wireLen.toNat / 3 ∧ ¬ s.WireWordValid k
  | .illegal => IllegalWord w
  | .range =>
    (∃ a : Word, decode w = .ok (.wget a) ∧ s.rawLen.toNat ≤ a.toNat) ∨
    (∃ a : Word, decode w = .ok (.bget a) ∧ s.wireLen.toNat ≤ a.toNat)
  | .overflow =>
    (∃ a : Word, decode w = .ok (.wpush a) ∧ s.rawLen.toNat = s.nw.val) ∨
    (∃ b : Byte, decode w = .ok (.bpush b) ∧ s.wireLen.toNat = 3 * s.nw.val) ∨
    (∃ a : Word, decode w = .ok (.frame a) ∧ s.rawLen.toNat = s.nw.val)

/-- R140, R141: the `val` each error carries: for ChecksumError the lowest invalid wire-word, otherwise 0. -/
def ErrorVal (s : State) (val : Word) : ErrorKind → Prop
  | .checksum => ¬ s.WireWordValid val.toNat ∧ ∀ j, j < val.toNat → s.WireWordValid j
  | .framing | .illegal | .range | .overflow => val = 0#16

theorem ErrorVal.eq_zero {s : State} {val : Word} {e : ErrorKind} (h : ErrorVal s val e) (he : e ≠ .checksum) :
    val = 0#16 := by
  cases e with
  | checksum => exact absurd rfl he
  | framing | illegal | range | overflow => exact h

section
variable {w : ReqWord} {s : State} (hs : s.Inv)
include hs

/-- `DEC` with the first of its wire-words that is not valid (R93, R144). -/
theorem State.Inv.exec_dec_of_first_invalid (hmod : s.wireLen.toNat % 3 = 0) {k : Nat} (hk : k < s.wireLen.toNat / 3)
    (hbad : ¬ s.WireWordValid k) (hgood : ∀ j < k, s.WireWordValid j) :
    exec .dec s = raise .checksum (natVal k) (s.setRawLen 0#16) := by
  obtain ⟨bs, hlen, hw, -⟩ := hs.exists_wireIs
  rw [← hlen] at hmod hk
  have valid : ∀ j ≤ k, (s.WireWordValid j ↔ WireWordPasses bs j) := fun j hj => hw.wireWordValid_iff (by omega)
  refine hs.exec_dec_checksum hw (decodeBytes_first_failure hmod hk ?_ fun j hj => ?_)
  · exact mt (valid k le_rfl).2 hbad
  · exact (valid j hj.le).1 (hgood j hj)

theorem State.Inv.exec_dec_of_all_valid (hmod : s.wireLen.toNat % 3 = 0)
    (hgood : ∀ k < s.wireLen.toNat / 3, s.WireWordValid k) :
    ∃ ws, exec .dec s = answer (natVal ws.length) (s.putWords ws) := by
  obtain ⟨bs, hlen, hw, -⟩ := hs.exists_wireIs
  rw [← hlen] at hmod hgood
  have hpass : ∀ k < bs.length / 3, WireWordPasses bs k := fun k hk =>
    (hw.wireWordValid_iff (by omega)).1 (hgood k hk)
  exact ⟨_, hs.exec_dec_words hw (decodeBytes_all_pass hmod hpass)⟩

/-- Where an error's cause holds, the request raises it, with its `val`. -/
theorem State.Inv.raise_of_cause {e : ErrorKind} (he : ErrorCause w s e) :
    ∃ val u, ErrorVal s val e ∧ u.responses = s.responses ∧ runRequest w s = raise e val u := by
  cases e with
  | framing =>
    obtain ⟨hd, hmod⟩ := he
    obtain ⟨bs, hlen, hw, -⟩ := hs.exists_wireIs
    refine ⟨0#16, s.setRawLen 0#16, rfl, rfl, ?_⟩
    rw [runRequest_of_ok hd, hs.exec_dec_framing hw (decodeBytes_framing bs (hlen ▸ hmod))]
  | checksum =>
    classical
    obtain ⟨hd, hmod, hex⟩ := he
    obtain ⟨hlt, hbad⟩ := Nat.find_spec hex
    have hgood : ∀ j < Nat.find hex, s.WireWordValid j := fun j hj =>
      not_not.1 fun hj' => Nat.find_min hex hj ⟨hj.trans hlt, hj'⟩
    have hval : (natVal (Nat.find hex)).toNat = Nat.find hex := natVal_toNat _ (by have := s.wireLen.isLt; omega)
    refine ⟨natVal (Nat.find hex), s.setRawLen 0#16, ?_, rfl, ?_⟩
    · rw [ErrorVal, hval]
      exact ⟨hbad, hgood⟩
    · rw [runRequest_of_ok hd, hs.exec_dec_of_first_invalid hmod hlt hbad hgood]
  | illegal => exact ⟨0#16, s, rfl, rfl, runRequest_of_illegal he s⟩
  | range =>
    refine ⟨0#16, s, rfl, rfl, ?_⟩
    rcases he with ⟨a, hd, hle⟩ | ⟨a, hd, hle⟩
    · rw [runRequest_of_ok hd, exec_wget_of_rawLen_le hle]
    · rw [runRequest_of_ok hd, exec_bget_of_wireLen_le hle]
  | overflow =>
    refine ⟨0#16, s, rfl, rfl, ?_⟩
    rcases he with ⟨a, hd, hfull⟩ | ⟨b, hd, hfull⟩ | ⟨a, hd, hfull⟩
    · rw [runRequest_of_ok hd, exec_wpush_of_full a hfull]
    · rw [runRequest_of_ok hd, exec_bpush_of_full b hfull]
    · rw [runRequest_of_ok hd, hs.exec_frame_of_full a hfull]

/-- Under the invariant the test of each request is the cause that R140 names. -/
theorem State.Inv.cause_of_raises {i : Instr} {e : ErrorKind} (hd : decode w = .ok i) (h : Raises i s e) :
    ErrorCause w s e := by
  cases h with
  | wpush a _ h => exact .inl ⟨a, hd, h⟩
  | bpush b _ h => exact .inr (.inl ⟨b, hd, h⟩)
  | frame cmd _ h => exact .inr (.inr ⟨cmd, hd, hs.frame_overflows_iff.1 h⟩)
  | wget a _ h => exact .inl ⟨a, hd, BitVec.le_def.1 h⟩
  | bget a _ h => exact .inr ⟨a, hd, BitVec.le_def.1 h⟩
  | cfgw b _ h => exact absurd (reserved_clear_of_decode_cfgw hd) h

/-- A request word that goes on answers `OK`, unless the cause of an error holds. -/
theorem State.Inv.ok_or_cause {t : State} (h : runRequest w s = .next t) :
    (∃ val, t.responses = s.responses ++ [rspWord codeOk val]) ∨ ∃ e, ErrorCause w s e := by
  by_cases hdec : decode w = .ok .dec
  · by_cases hmod : s.wireLen.toNat % 3 = 0
    · by_cases hex : ∃ k, k < s.wireLen.toNat / 3 ∧ ¬ s.WireWordValid k
      · exact .inr ⟨.checksum, hdec, hmod, hex⟩
      · push Not at hex
        obtain ⟨ws, hws⟩ := hs.exec_dec_of_all_valid hmod hex
        rw [runRequest_of_ok hdec, hws] at h
        cases h
        exact .inl ⟨_, rfl⟩
    · exact .inr ⟨.framing, hdec, hmod⟩
  · refine (runRequest_endsPlainly hdec s t h).imp_right ?_
    rintro ⟨e, ⟨hill, rfl⟩ | ⟨i, hd, hraises⟩, -⟩
    · exact ⟨.illegal, hill⟩
    · exact ⟨e, hs.cause_of_raises hd hraises⟩

variable {t : State} {r : RspWord} (h : runRequest w s = .next t) (hr : t.responses = s.responses ++ [r])
include h hr

/-- The response, where the cause of an error holds. -/
theorem State.Inv.response_of_cause {e : ErrorKind} (he : ErrorCause w s e) :
    ∃ val, ErrorVal s val e ∧ r = rspWord e.code val := by
  obtain ⟨val, u, hval, hu, hraise⟩ := hs.raise_of_cause he
  rw [hraise] at h
  cases h
  rw [State.respond_responses, State.recordError_responses, hu] at hr
  exact ⟨val, hval, (eq_of_append_eq _ _ _ hr).symm⟩

/-- Every response: `OK`, or an error whose cause holds. -/
theorem State.Inv.response_cases :
    (∃ val, r = rspWord codeOk val) ∨ ∃ e val, ErrorCause w s e ∧ ErrorVal s val e ∧ r = rspWord e.code val := by
  rcases hs.ok_or_cause h with ⟨val, hok⟩ | ⟨e, he⟩
  · exact .inl ⟨val, eq_of_append_eq _ _ _ (hr.symm.trans hok)⟩
  · obtain ⟨val, hval, hrsp⟩ := hs.response_of_cause h hr he
    exact .inr ⟨e, val, he, hval, hrsp⟩

theorem State.Inv.code_iff_cause (e : ErrorKind) : r.extractLsb' 24 8 = e.code ↔ ErrorCause w s e := by
  constructor
  · intro hcode
    rcases hs.response_cases h hr with ⟨val, rfl⟩ | ⟨f, val, hf, -, rfl⟩
    · rw [rspWord_code] at hcode
      exact absurd hcode.symm e.code_ne_ok
    · rw [rspWord_code] at hcode
      obtain rfl := ErrorKind.code_injective _ _ hcode
      exact hf
  · intro he
    obtain ⟨val, -, rfl⟩ := hs.response_of_cause h hr he
    exact rspWord_code _ _

end

/-- Settles O40: the response is `OK` or that of an error whose cause holds, and a cause that holds fixes the response. -/
theorem errorsExactlyWhenCaused : Obligations.ErrorsExactlyWhenCaused := by
  intro w s t r hs h hr
  have iff_cause := hs.code_iff_cause h hr
  refine ⟨iff_cause .framing, iff_cause .checksum, iff_cause .illegal, iff_cause .range, iff_cause .overflow, ?_⟩
  rcases hs.response_cases h hr with ⟨val, rfl⟩ | ⟨e, val, -, hval, rfl⟩
  · rw [rspWord_code, rspWord_zero]
    exact ⟨by decide, rfl, fun hne => absurd rfl hne, fun h2 => absurd h2 (by decide)⟩
  · rw [rspWord_code, rspWord_zero, rspWord_val]
    refine ⟨e.code_le_five, rfl, fun _ hne => hval.eq_zero fun he => hne (he ▸ rfl), fun h2 => ?_⟩
    obtain rfl := ErrorKind.code_injective e .checksum h2
    exact hval

end Sys2Proof.Machine
end

section
/-! The hazards: what a failed DEC leaves to read (70_reset_and_hazards.md R162). -/

namespace Sys2Proof.Machine

/-- R93: a `DEC` that answers a nonzero code has emptied RAW. -/
theorem rawLen_of_failed_dec {s t : State} {r : RspWord} (h : exec .dec s = .next t)
    (hr : t.responses = s.responses ++ [r]) (hne : r.extractLsb' 24 8 ≠ 0#8) : t.rawLen = 0#16 := by
  rcases exec_next_cases h with ⟨u, hu, hok⟩ | ⟨-, hnd, -⟩ | ⟨-, -, -, rfl⟩
  · obtain ⟨val, hval⟩ := endsOk_responses hok
    rw [hu.outside.1] at hval
    obtain rfl := eq_of_append_eq _ _ _ (hr.symm.trans hval)
    exact absurd (rspWord_code _ _) hne
  · exact absurd rfl hnd
  · rfl

/-- Settles O42: a failed DEC has emptied RAW, and no index is below a fill count of 0. -/
theorem failedDecodeYieldsNoWord : Obligations.FailedDecodeYieldsNoWord := by
  intro s t r a h hr hne
  have hempty : t.rawLen = 0#16 := rawLen_of_failed_dec h hr hne
  have hle : t.rawLen.toNat ≤ a.toNat := by simp [hempty]
  refine ⟨hempty, ?_⟩
  rw [exec_wget_of_rawLen_le hle, raise_eq]
  rfl

end Sys2Proof.Machine
end

section
/-! The CRC-8 function in its other forms, and what it detects (40_crc8.md R70 to R75). -/

namespace Sys2Proof.Machine

/-! ## The byte-wise loop and the table (R70, R73) -/

/-- The cut to a byte that R70 and R71 write after a shift; a register of 8 bits has it already. -/
theorem shiftLeft_cut (c : Byte) : (c <<< 1) &&& 0xFF#8 = c <<< 1 := BitVec.and_allOnes

/-- The turn of R70 as the loop writes it: bit 7 tested, and the shifted value cut to a byte. -/
theorem crcShift_eq_ite (c : Byte) :
    crcShift c = if c.getLsbD 7 then ((c <<< 1) &&& 0xFF#8) ^^^ 0x31#8 else (c <<< 1) &&& 0xFF#8 := by
  rw [shiftLeft_cut]
  rfl

theorem crcShifts_eq_iterate (n : Nat) (c : Byte) : crcShifts n c = crcShift^[n] c := by
  induction n generalizing c with
  | zero => rfl
  | succ n ih => exact ih (crcShift c)

/-- Counting to `n` and turning each time is `n` turns. -/
theorem crcShifts_eq_foldl_range (n : Nat) (c : Byte) :
    crcShifts n c = (List.range n).foldl (fun c _ =>
      if c.getLsbD 7 then ((c <<< 1) &&& 0xFF#8) ^^^ 0x31#8 else (c <<< 1) &&& 0xFF#8) c := by
  simp only [← crcShift_eq_ite]
  rw [List.foldl_const, List.length_range, crcShifts_eq_iterate]

/-- Settles O2: the inner loop is eight turns, and the final xor is with 0. -/
theorem crc8IsTheBytewiseLoop : Obligations.Crc8IsTheBytewiseLoop := by
  intro b0 b1
  simp only [← crcShifts_eq_foldl_range, List.foldl_cons, List.foldl_nil]
  exact crc8_eq b0 b1

/-- Settles O5: a table entry is eight turns, which is also what each byte of `crc8` takes; the 256 values are
computed. -/
theorem tableFormOfCrc : Obligations.TableFormOfCrc := by
  exact ⟨crcShifts_eq_foldl_range 8, crc8_eq, by decide +kernel⟩

/-- Settles O1: the eight values, computed. -/
theorem crcReferenceValues : Obligations.CrcReferenceValues := by
  unfold Obligations.CrcReferenceValues
  decide +kernel

/-! ## The bit-serial register (R71, R72) -/

/-- A bit of the register after a bit-step: the bit below it, flipped at the taps of the polynomial by the feedback. -/
theorem serialStep_getLsbD (r : Byte) (d : Bool) (i : Nat) :
    (serialStep r d).getLsbD i =
      ((decide (i < 8) && !decide (i < 1) && r.getLsbD (i - 1)) ^^ (crcPoly.getLsbD i && (r.getLsbD 7 ^^ d))) := by
  rw [serialStep]
  cases r.getLsbD 7 ^^ d <;> simp [BitVec.getLsbD_shiftLeft]

/-- Settles O4: the polynomial has taps at bits 0, 4 and 5. -/
theorem gateEquationsOfOneBitStep : Obligations.GateEquationsOfOneBitStep := by
  intro r d
  simp only [serialStep_getLsbD]
  simp [crcPoly]

/-- A turn on a register with a byte xored in: the byte's top bit goes into a bit-step, its other bits
wait, shifted up. -/
theorem crcShift_xor_eq_serialStep (r b : Byte) : crcShift (r ^^^ b) = serialStep r (b.getLsbD 7) ^^^ b <<< 1 := by
  have hm : (r ^^^ b).msb = (r.getLsbD 7 ^^ b.getLsbD 7) := BitVec.getLsbD_xor
  rw [crcShift, serialStep, hm, BitVec.shiftLeft_xor_distrib]
  split
  · rw [BitVec.xor_assoc, BitVec.xor_assoc, BitVec.xor_comm crcPoly]
  · rfl

/-- `n` turns on a register with a byte xored in: its top `n` bits are fed in, most significant first. -/
theorem crcShifts_xor_eq_serial (n : Nat) (r b : Byte) :
    crcShifts n (r ^^^ b) =
      ((List.range n).map fun i => (b <<< i).getLsbD 7).foldl serialStep r ^^^ b <<< n := by
  induction n generalizing r b with
  | zero => simp [crcShifts]
  | succ n ih =>
    have later : ∀ i, b <<< 1 <<< i = b <<< (i + 1) := fun i => by rw [← BitVec.shiftLeft_add, Nat.add_comm]
    rw [crcShifts, crcShift_xor_eq_serialStep, ih, List.range_succ_eq_map, List.map_cons, List.map_map, later]
    simp only [later, List.foldl_cons, BitVec.shiftLeft_zero, Function.comp_def]

/-- The register takes one byte as the loop does. -/
theorem serial_bitsMsbFirst (r b : Byte) : (bitsMsbFirst b).foldl serialStep r = crcByte r b := by
  have bits : bitsMsbFirst b = (List.range 8).map fun i => (b <<< i).getLsbD 7 := by
    simp [bitsMsbFirst, List.range, List.range.loop]
  have spent : b <<< 8 = 0#8 := BitVec.shiftLeft_eq_zero le_rfl
  rw [crcByte, crcShifts_xor_eq_serial, spent, BitVec.xor_zero, bits]

theorem crc8Serial_eq_crc8 (b0 b1 : Byte) : crc8Serial b0 b1 = crc8 b0 b1 := by
  rw [crc8Serial, List.foldl_append, serial_bitsMsbFirst, serial_bitsMsbFirst, crc8_eq]
  rfl

/-- The bit-step as R71 writes it. -/
theorem serialStep_eq_ite (r : Byte) (d : Bool) :
    serialStep r d = if (r.getLsbD 7 ^^ d) then ((r <<< 1) &&& 0xFF#8) ^^^ 0x31#8 else (r <<< 1) &&& 0xFF#8 := by
  rw [shiftLeft_cut]
  rfl

/-- Settles O3: the register takes each byte as the byte-wise loop does. -/
theorem serialRegisterComputesCrc : Obligations.SerialRegisterComputesCrc := by
  refine fun b0 b1 => ⟨?_, crc8Serial_eq_crc8 b0 b1⟩
  simp only [← serialStep_eq_ite]
  rfl

/-! ## What the CRC detects (R75) -/

/-- For a fixed first byte no two second bytes have one CRC. -/
theorem crc8_injective_right (b0 : Byte) : Function.Injective (crc8 b0) := by
  intro b1 b1' h
  rw [crc8_eq, crc8_eq] at h
  exact (BitVec.xor_right_inj _).1 (crcShifts_injective 8 _ _ h)

/-- For a fixed second byte no two first bytes have one CRC. -/
theorem crc8_injective_left (b1 : Byte) : Function.Injective fun b0 => crc8 b0 b1 := by
  intro b0 b0' h
  simp only [crc8_eq] at h
  have inner := (BitVec.xor_left_inj _).1 (crcShifts_injective 8 _ _ h)
  exact (BitVec.xor_right_inj _).1 (crcShifts_injective 8 _ _ inner)

/-- A flip of one of its bits changes a byte. -/
theorem xor_flip_ne (b : Byte) {i : Nat} (hi : i < 8) : b ^^^ (1#8 <<< i) ≠ b := by
  have bit : ∀ i < 8, 1#8 <<< i ≠ 0#8 := by decide
  intro h
  exact bit i hi ((BitVec.xor_right_inj _).1 (h.trans BitVec.xor_zero.symm))

theorem verify_eq_false_iff (b0 b1 crc : Byte) : verify b0 b1 crc = false ↔ crc8 b0 b1 ≠ crc := by
  rw [← Bool.not_eq_true, verify_iff]

/-- Settles O7: a flipped byte is another byte, and `crc8` is injective in each of its bytes. -/
theorem singleBitFlipIsDetected : Obligations.SingleBitFlipIsDetected := by
  intro b0 b1 i hi
  simp only [verify_eq_false_iff]
  exact ⟨fun h => xor_flip_ne b0 hi (crc8_injective_left b1 h), fun h => xor_flip_ne b1 hi (crc8_injective_right b0 h),
    (xor_flip_ne _ hi).symm⟩

/-- R75 (d): a third byte goes into the loop as the first two do. -/
theorem crcOver_three (b0 b1 b2 : Byte) : crcOver [b0, b1, b2] = crcShifts 8 (crc8 b0 b1 ^^^ b2) := by
  simp [crc8, crcOver, crcByte, crcXorOut]

/-- Settles O8: over its own CRC the loop runs on 0; and an injective function on the bytes is a bijection. -/
theorem crcResidueAndBijection : Obligations.CrcResidueAndBijection := by
  refine ⟨fun b0 b1 => (verify_iff _ _ _).2 rfl, fun b0 b1 => ?_, fun b0 => ?_⟩
  · rw [crcOver_three, BitVec.xor_self]
    rfl
  · exact Finite.injective_iff_bijective.1 (crc8_injective_right b0)

end Sys2Proof.Machine
end

section
/-! `decode` undoes `encode`, and finds every flipped bit (41_serializer.md R82, 42_deserializer.md R92). -/

namespace Sys2Proof.Machine

/-- The length `h` of the command field is 2, and one more with its CRC. -/
theorem headLength_eq (c : Bool) : headLength c = 2 + if c then 1 else 0 := by
  cases c <;> rfl

/-- Settles O21: three bytes a word, after the command field. -/
theorem frameLengthLaws : Obligations.FrameLengthLaws := fun cmd ws c =>
  ⟨encodeWords_length ws, by rw [frameBytes_length, headLength_eq]⟩

/-! ## decode of encode (R92 a) -/

theorem decodeFrom_encodeWords (ws : List Word) (k : Nat) : decodeFrom k (encodeWords ws) = .ok ws := by
  induction ws generalizing k with
  | nil => exact decodeFrom_nil k
  | cons w ws ih =>
    rw [encodeWords_cons, crcWord, decodeFrom_cons_valid, ih, joinBytes_hi_lo]
    rfl

theorem encodeWords_length_mod (ws : List Word) : (encodeWords ws).length % 3 = 0 := by
  rw [encodeWords_length, Nat.mul_mod_right]

theorem decodeBytes_encodeWords (ws : List Word) : decodeBytes (encodeWords ws) = .ok ws := by
  rw [decodeBytes_of_mod _ (encodeWords_length_mod ws), decodeFrom_encodeWords]

/-! ## encode of decode (R92 b) -/

/-- A wire-word that passes is the wire-word of the word it carries. -/
theorem encodeWords_joinBytes_cons (hi lo : Byte) (ws : List Word) :
    encodeWords (joinBytes hi lo :: ws) = hi :: lo :: crc8 hi lo :: encodeWords ws := by
  rw [encodeWords_cons, crcWord, hiByte_join, loByte_join]

theorem encodeWords_of_decodeFrom {k : Nat} {bs : List Byte} {ws : List Word} (h : decodeFrom k bs = .ok ws) :
    encodeWords ws = bs := by
  induction k, bs using decodeFrom.induct generalizing ws with
  | case1 k =>
    rw [decodeFrom_nil] at h
    cases h
    rfl
  | case2 k hi lo crc rest hv ih =>
    obtain rfl := (verify_iff hi lo crc).1 hv
    rw [decodeFrom_cons_valid] at h
    cases hrest : decodeFrom (k + 1) rest with
    | error e =>
      rw [hrest] at h
      cases h
    | ok vs =>
      rw [hrest] at h
      cases h
      rw [encodeWords_joinBytes_cons, ih hrest]
  | case3 k hi lo crc rest hv =>
    rw [decodeFrom_cons, if_neg (mt (verify_iff hi lo crc).2 hv)] at h
    cases h
  | case4 k bs h0 h3 =>
    rw [decodeFrom] at h
    · cases h
    · exact h0
    · exact h3

theorem encodeWords_of_decodeBytes {bs : List Byte} {ws : List Word} (h : decodeBytes bs = .ok ws) :
    encodeWords ws = bs := by
  by_cases hmod : bs.length % 3 = 0
  · rw [decodeBytes_of_mod bs hmod] at h
    exact encodeWords_of_decodeFrom h
  · rw [decodeBytes_framing bs hmod] at h
    cases h

/-- A buffer that decodes has three bytes for every word. -/
theorem length_of_decodeBytes {bs : List Byte} {ws : List Word} (h : decodeBytes bs = .ok ws) :
    3 * ws.length = bs.length := by
  rw [← encodeWords_length, encodeWords_of_decodeBytes h]

/-! ## One flipped bit (R92 c) -/

/-- A flipped bit fails the check of the wire-word it is in, and the wire-words before it pass. -/
theorem decodeFrom_flip {ws : List Word} {j i : Nat} {b : Byte} (hb : (encodeWords ws)[j]? = some b) (hi : i < 8)
    (k : Nat) :
    decodeFrom k ((encodeWords ws).set j (b ^^^ (1#8 <<< i))) = .error (.checksum (k + j / 3)) := by
  induction ws generalizing j k with
  | nil => cases hb
  | cons w ws ih =>
    obtain ⟨hhi, hlo, hcrc⟩ := singleBitFlipIsDetected (hiByte w) (loByte w) i hi
    rw [verify_eq_false_iff] at hhi hlo hcrc
    rw [encodeWords_cons] at hb ⊢
    match j with
    | 0 =>
      cases hb
      exact (decodeFrom_cons ..).trans (if_neg hhi)
    | 1 =>
      cases hb
      exact (decodeFrom_cons ..).trans (if_neg hlo)
    | 2 =>
      cases hb
      exact (decodeFrom_cons ..).trans (if_neg hcrc)
    | j + 3 =>
      have later : k + (j + 3) / 3 = k + 1 + j / 3 := by omega
      rw [later, List.set_cons_succ, List.set_cons_succ, List.set_cons_succ, crcWord, decodeFrom_cons_valid, ih hb]
      rfl

/-! ## decode of an outbound frame (R92 d, e) -/

theorem decodeBytes_frameBytes_true (cmd : Word) (ws : List Word) :
    decodeBytes (frameBytes cmd ws true) = .ok (cmd :: ws) := by
  rw [frameBytes_true_eq_encodeWords, decodeBytes_encodeWords]
  rfl

/-- Without its CRC the command field leaves a length that is no multiple of 3. -/
theorem decodeBytes_frameBytes_false (cmd : Word) (ws : List Word) :
    decodeBytes (frameBytes cmd ws false) = .error .framing := by
  refine decodeBytes_framing _ ?_
  rw [frameBytes_length, Nat.add_mul_mod_self_left]
  decide

/-- Settles O23: each law one wire-word at a time, by induction on the words or along `decodeFrom`. -/
theorem decodeInvertsEncode : Obligations.DecodeInvertsEncode := by
  refine ⟨decodeBytes_encodeWords, fun bs ws h => ⟨length_of_decodeBytes h, encodeWords_of_decodeBytes h⟩,
    fun ws j i b hb hi => ?_, fun cmd ws => ⟨decodeBytes_frameBytes_true cmd ws, decodeBytes_frameBytes_false cmd ws⟩⟩
  rw [decodeBytes_of_mod _ (by rw [List.length_set, encodeWords_length_mod]), decodeFrom_flip hb hi, Nat.zero_add]

end Sys2Proof.Machine
end

section
/-! Requests and their words, one to one, and the step that runs them (30_encoding.md R50 to R54, 20_memory.md R41). -/

namespace Sys2Proof

/-! ## decode of encode -/

/-- A well-formed request's word is selected by its row (R51), for each of the 17 rows. -/
theorem Instr.selects_encode {i : Instr} (hi : i.wellFormed = true) : i.opcode.selects (encode i) = true := by
  have statement : Laws.EncodeMatches.Statement i := by
    cases i with
    | crc8 w => exact Laws.EncodeMatches.crc8 w
    | crc8v w c => exact Laws.EncodeMatches.crc8v w c
    | wclr => exact Laws.EncodeMatches.wclr
    | wpush w => exact Laws.EncodeMatches.wpush w
    | wget a => exact Laws.EncodeMatches.wget a
    | wlen => exact Laws.EncodeMatches.wlen
    | bclr => exact Laws.EncodeMatches.bclr
    | bpush b => exact Laws.EncodeMatches.bpush b
    | bget a => exact Laws.EncodeMatches.bget a
    | blen => exact Laws.EncodeMatches.blen
    | enc => exact Laws.EncodeMatches.enc
    | frame cmd => exact Laws.EncodeMatches.frame cmd
    | dec => exact Laws.EncodeMatches.dec
    | stat => exact Laws.EncodeMatches.stat
    | eclr => exact Laws.EncodeMatches.eclr
    | cfgr => exact Laws.EncodeMatches.cfgr
    | cfgw b => exact Laws.EncodeMatches.cfgw b
  exact (statement hi).1

theorem decode_encode {i : Instr} (hi : i.wellFormed = true) : decode (encode i) = .ok i := by
  rw [decode_of_selects (i.selects_encode hi), encode, aField_pack, bField_pack, i.withFields_operands]

/-- Settles O34: the word of a well-formed request is selected by its row, and its fields are the operands. -/
theorem decodeOfEncodeIsTheRequest : Obligations.DecodeOfEncodeIsTheRequest := fun _ => decode_encode

/-! ## encode of decode -/

theorem Opcode.withFields_opcode (o : Opcode) (a : Word) (b : Byte) : (o.withFields a b).opcode = o := by
  cases o <;> rfl

/-- A selected word's request carries its fields: what the format does not use is 0 in the word too (R51). -/
theorem Opcode.operands_of_selects {o : Opcode} {w : ReqWord} (h : o.selects w = true) :
    (o.withFields (aField w) (bField w)).aOperand = aField w ∧
    (o.withFields (aField w) (bField w)).bOperand = bField w ∧
    (o.withFields (aField w) (bField w)).wellFormed = true := by
  obtain ⟨-, ha, hb⟩ := (o.selects_iff w).1 h
  cases o with
  | wclr | wlen | bclr | blen | enc | dec | stat | eclr | cfgr => exact ⟨(ha rfl).symm, Eq.symm hb, rfl⟩
  | crc8 | wpush | wget | bget | frame => exact ⟨rfl, Eq.symm hb, rfl⟩
  | bpush => exact ⟨(ha rfl).symm, rfl, rfl⟩
  | crc8v => exact ⟨rfl, rfl, rfl⟩
  | cfgw => exact ⟨(ha rfl).symm, rfl, beq_iff_eq.2 hb⟩

/-- Settles O35: a selected word has its row's `op`, and its other fields are the operands of its request. -/
theorem decodedWordIsItsEncoding : Obligations.DecodedWordIsItsEncoding := by
  intro w i h
  obtain ⟨o, hop, hs, rfl⟩ := (decode_eq_ok_iff w i).1 h
  obtain ⟨ha, hb, hwf⟩ := Opcode.operands_of_selects hs
  refine ⟨hwf, ?_⟩
  rw [encode, o.withFields_opcode, ha, hb, ← hop, pack_fields]

/-- Settles O32: the 18 words, decoded by evaluation. -/
theorem sampleWordsDecode : Obligations.SampleWordsDecode := by
  unfold Obligations.SampleWordsDecode
  decide

end Sys2Proof

namespace Sys2Proof.Machine

/-! ## The step (R19, R41) -/

theorem step_of_no_event {s : State} (h : s.inputs = []) : step s = .next s := by
  rw [step, h]

/-- Settles O37: with no event there is nothing to take. -/
theorem idleStepChangesNothing : Obligations.IdleStepChangesNothing := fun _ => step_of_no_event

theorem decode_tableWord {nbits n : Nat} {i : Instr} (h : decodeTableWord nbits n = some i) :
    decode (tableWord nbits n) = .ok i := by
  rw [decodeTableWord] at h
  cases hd : decode (tableWord nbits n) with
  | error e =>
    rw [hd] at h
    cases h
  | ok j =>
    rw [hd] at h
    exact congrArg _ (Option.some.inj h)

/-- The only terms that are no request: `cfgw` with a reserved bit (R51, format C). -/
theorem exists_cfgw_of_not_wellFormed {i : Instr} (h : i.wellFormed ≠ true) :
    ∃ b, i = .cfgw b ∧ b &&& 0xFE#8 ≠ 0#8 := by
  cases i with
  | cfgw b => exact ⟨b, rfl, fun hb => h (beq_iff_eq.2 hb)⟩
  | crc8 | crc8v | wclr | wpush | wget | wlen | bclr | bpush | bget | blen | enc | frame | dec | stat | eclr | cfgr =>
    exact absurd rfl h

theorem exec_cfgw_of_reserved_set {b : Byte} (hb : b &&& 0xFE#8 ≠ 0#8) (s : State) :
    exec (.cfgw b) s = raise .illegal 0#16 s := if_neg hb

theorem illegalWord_encode_cfgw {b : Byte} (hb : b &&& 0xFE#8 ≠ 0#8) : IllegalWord (encode (.cfgw b)) := by
  refine illegalWord_of_op (o := .cfgw) (opField_pack _ _ _) fun hs => hb ?_
  obtain ⟨-, -, hb'⟩ := (Opcode.selects_pack_iff .cfgw _ _ _).1 hs
  exact hb'

/-- Every term does what its word does; the ill-formed ones are illegal both ways (log 15). -/
theorem runRequest_encode (i : Instr) (s : State) : runRequest (encode i) s = exec i s := by
  by_cases hi : i.wellFormed = true
  · exact runRequest_of_ok (decode_encode hi) s
  · obtain ⟨b, rfl, hb⟩ := exists_cfgw_of_not_wellFormed hi
    rw [runRequest_of_illegal (illegalWord_encode_cfgw hb), exec_cfgw_of_reserved_set hb]

/-- Settles O36: the oldest event is taken and run, and a word runs as the request it decodes to. -/
theorem stepRunsTheDecodedRequest : Obligations.StepRunsTheDecodedRequest := by
  refine ⟨fun s w i rest hs hw => ?_, fun s nbits n i h => ?_, runRequest_encode, fun b s hb => ?_⟩
  · rw [step_request hs, runRequest_of_ok hw]
  · exact (step_request rfl).trans (runRequest_of_ok (decode_tableWord h) s)
  · rw [exec_cfgw_of_reserved_set hb, raise_eq]
    rfl

end Sys2Proof.Machine
end

section
/-! The invariant: it holds at reset, every request keeps it, and under it every request goes on (10_state.md R21 to R23, 60_exceptions.md R146). -/

namespace Sys2Proof.Machine

/-! ## What keeps the invariant (R21) -/

/-- A sticky bit is none of the reserved bits of STATUS (R15). -/
theorem State.Inv.recordError {s : State} (hs : s.Inv) (e : ErrorKind) : (s.recordError e).Inv := by
  obtain ⟨h1, h2, h3, h4, h5, h6⟩ := hs
  refine ⟨h1, h2, ?_, h4, h5, h6⟩
  rw [State.recordError_status, BitVec.extractLsb'_or, h3, e.statusBit_reserved]
  rfl

theorem State.Inv.setRawLen_zero {s : State} (hs : s.Inv) : (s.setRawLen 0#16).Inv := by
  obtain ⟨-, h2, h3, h4, -, h6⟩ := hs
  exact ⟨Nat.zero_le _, h2, h3, h4, by rw [State.setRawLen_zero]; rfl, h6⟩

theorem State.Inv.setWireLen_zero {s : State} (hs : s.Inv) : (s.setWireLen 0#16).Inv := by
  obtain ⟨h1, -, h3, h4, h5, -⟩ := hs
  exact ⟨h1, Nat.zero_le _, h3, h4, h5, by rw [State.setWireLen_zero]; rfl⟩

/-- `WPUSH` with room (R101): the count stays within the capacity, and the new cell is the next one. -/
theorem State.Inv.pushRaw {s : State} (hs : s.Inv) (w : Word) (hroom : s.rawLen.toNat ≠ s.nw.val) :
    ((s.writeRaw s.rawLen.toNat [w]).setRawLen (s.rawLen + 1#16)).Inv := by
  obtain ⟨h1, h2, h3, h4, h5, h6⟩ := hs
  have hcap := capacity_bounds s
  have hsucc : (s.rawLen + 1#16).toNat = s.rawLen.toNat + 1 := succ_toNat _ (by omega)
  refine ⟨?_, h2, h3, h4, ?_, h6⟩
  · simp only [State.setRawLen_rawLen, State.setRawLen_nw, State.writeRaw_nw]
    omega
  · simp only [State.setRawLen_rawLen, State.setRawLen_raw, State.writeRaw_raw, hsucc]
    exact Cells.keys_push _ _ w h5

/-- `BPUSH` with room (R105). -/
theorem State.Inv.pushWire {s : State} (hs : s.Inv) (b : Byte) (hroom : s.wireLen.toNat ≠ 3 * s.nw.val) :
    ((s.memWrite1 s.wireLen.toNat b).setWireLen (s.wireLen + 1#16)).Inv := by
  obtain ⟨h1, h2, h3, h4, h5, h6⟩ := hs
  have hcap := capacity_bounds s
  have hsucc : (s.wireLen + 1#16).toNat = s.wireLen.toNat + 1 := succ_toNat _ (by omega)
  refine ⟨h1, ?_, h3, h4, h5, ?_⟩
  · simp only [State.setWireLen_wireLen, State.setWireLen_nw, State.memWrite1_nw]
    omega
  · simp only [State.setWireLen_wireLen, State.setWireLen_wire, State.memWrite1_wire, hsucc]
    exact Cells.keys_push _ _ b h6

/-- `DEC` of words that fit RAW (R93). -/
theorem State.Inv.putWords {s : State} (hs : s.Inv) {ws : List Word} (hn : ws.length ≤ s.nw.val) :
    (s.putWords ws).Inv := by
  obtain ⟨-, h2, h3, h4, h5, h6⟩ := hs
  have hcap := capacity_bounds s
  have hlen : (natVal ws.length).toNat = ws.length := natVal_toNat _ (by omega)
  refine ⟨?_, h2, h3, h4, ?_, h6⟩
  · simpa only [State.putWords_rawLen, State.putWords_nw, hlen] using hn
  · simp only [State.putWords_rawLen, State.putWords_raw, hlen]
    exact Cells.keys_put _ _ ws h5

/-- `ENC` and `FRAME` of bytes that fit WIRE (R83, R84). -/
theorem State.Inv.putFrame {s : State} (hs : s.Inv) {bs : List Byte} (hn : bs.length ≤ 3 * s.nw.val) :
    (s.putFrame bs).Inv := by
  obtain ⟨h1, -, h3, h4, h5, h6⟩ := hs
  have hcap := capacity_bounds s
  have hlen : (natVal bs.length).toNat = bs.length := natVal_toNat _ (by omega)
  refine ⟨h1, ?_, h3, h4, h5, ?_⟩
  · simpa only [State.putFrame_wireLen, State.putFrame_nw, hlen] using hn
  · simp only [State.putFrame_wireLen, State.putFrame_wire, hlen]
    exact Cells.keys_put _ _ bs h6

/-- The field of `CFGW` has no reserved bit (R17, R113). -/
theorem bitZero_reserved (b : Byte) : (bitZero b).extractLsb' 1 7 = 0#7 := by
  revert b
  decide +kernel

theorem length_of_rawWords {s : State} {ws : List Word} (h : s.rawWords = some ws) : ws.length = s.rawLen.toNat :=
  ((readFrom_eq_some_iff _ _ _ _).1 h).1

theorem length_of_wireBytes {s : State} {bs : List Byte} (h : s.wireBytes = some bs) : bs.length = s.wireLen.toNat :=
  ((readFrom_eq_some_iff _ _ _ _).1 h).1

/-! ## Every event keeps the invariant -/

/-- Whatever a request writes when it ends without error keeps the invariant. -/
theorem Wrote.inv {i : Instr} {s u : State} (h : Wrote i s u) (hs : s.Inv) : u.Inv := by
  have ⟨hrawCap, hwireCap, hstatus, hcfg, hrawKeys, hwireKeys⟩ := hs
  cases h with
  | nothing => exact hs
  | wclr => exact hs.setRawLen_zero
  | wpush w _ hroom => exact hs.pushRaw w hroom
  | bclr => exact hs.setWireLen_zero
  | bpush b _ hroom => exact hs.pushWire b hroom
  | enc _ ws hw =>
    refine hs.putFrame ?_
    rw [encodeWords_length, length_of_rawWords hw]
    omega
  | frame cmd _ ws hw hroom =>
    refine hs.putFrame ?_
    rwa [frameBytes_length, length_of_rawWords hw]
  | dec _ bs ws hb hd =>
    have hlen := length_of_decodeBytes hd
    rw [length_of_wireBytes hb] at hlen
    exact hs.putWords (by omega)
  | eclr => exact ⟨hrawCap, hwireCap, BitVec.extractLsb'_zero, hcfg, hrawKeys, hwireKeys⟩
  | cfgw b => exact ⟨hrawCap, hwireCap, hstatus, bitZero_reserved b, hrawKeys, hwireKeys⟩

theorem EndsOk.inv {t u : State} (h : EndsOk t u) (hu : u.Inv) : t.Inv := by
  obtain ⟨val, rfl⟩ := h
  exact hu

theorem EndsWith.inv {e : ErrorKind} {t u : State} (h : EndsWith e t u) (hu : u.Inv) : t.Inv := by
  obtain ⟨val, rfl⟩ := h
  exact hu.recordError e

theorem State.Inv.runRequest {s t : State} {w : ReqWord} (hs : s.Inv) (h : runRequest w s = .next t) : t.Inv := by
  rcases runRequest_next_cases h with ⟨i, u, -, hu, hok⟩ | ⟨e, -, he⟩ | ⟨e, -, he⟩
  · exact EndsOk.inv hok (hu.inv hs)
  · exact EndsWith.inv he hs
  · exact EndsWith.inv he hs.setRawLen_zero

theorem State.inv_resetWith (nw : Config.Capacity) : (State.resetWith nw).Inv :=
  ⟨Nat.zero_le _, Nat.zero_le _, BitVec.extractLsb'_zero, BitVec.extractLsb'_zero, rfl, rfl⟩

/-- Settles O53: both counts are 0 and no bit is set. -/
theorem invariantHoldsAtReset : Obligations.InvariantHoldsAtReset :=
  ⟨State.inv_resetWith _, State.inv_resetWith⟩

theorem State.inv_assertReset (s : State) : (assertReset s).Inv := State.inv_resetWith s.nw

/-- R160: an asserted reset, whatever it catches. -/
theorem step_reset {s : State} {inFlight : Option ReqWord} {rest : List PortEvent}
    (h : s.inputs = .reset inFlight :: rest) : step s = .next (assertReset { s with inputs := rest }) := by
  rw [step, h]
  rfl

/-- Settles O52: whatever it catches, reset leaves the values of R22. -/
theorem resetInputGivesResetState : Obligations.ResetInputGivesResetState := fun _ _ _ => step_reset

/-- The three kinds of step: idle, a request word, or reset (R19, R160). -/
theorem step_next_cases {s t : State} (h : step s = .next t) :
    (s.inputs = [] ∧ t = s) ∨
    (∃ w rest, s.inputs = .request w :: rest ∧ runRequest w { s with inputs := rest } = .next t) ∨
    (∃ inFlight rest, s.inputs = .reset inFlight :: rest ∧ t = assertReset { s with inputs := rest }) := by
  match hin : s.inputs with
  | [] =>
    rw [step_of_no_event hin] at h
    cases h
    exact .inl ⟨rfl, rfl⟩
  | .request w :: rest => exact .inr (.inl ⟨w, rest, rfl, step_request hin ▸ h⟩)
  | .reset inFlight :: rest =>
    rw [step_reset hin] at h
    cases h
    exact .inr (.inr ⟨inFlight, rest, rfl, rfl⟩)

/-- Settles O54: an idle step, a request word and a reset each keep the invariant. -/
theorem stepKeepsInvariant : Obligations.StepKeepsInvariant := by
  intro s t hs h
  rcases step_next_cases h with ⟨-, rfl⟩ | ⟨w, rest, -, hw⟩ | ⟨-, rest, -, rfl⟩
  · exact hs
  · exact State.Inv.runRequest (s := { s with inputs := rest }) hs hw
  · exact State.inv_assertReset _

/-! ## Every request goes on (R146) -/

theorem exec_wpush_eq (a : Word) (s : State) : exec (.wpush a) s = execWpush a s := rfl

theorem exec_bpush_eq (b : Byte) (s : State) : exec (.bpush b) s = execBpush b s := rfl

theorem exec_cfgw_eq (b : Byte) (s : State) : exec (.cfgw b) s = execCfgw b s := rfl

/-- Under the invariant every cell a request reads is there, so none stops. -/
theorem State.Inv.exists_exec {s : State} (hs : s.Inv) (i : Instr) : ∃ t, exec i s = .next t := by
  cases i with
  | crc8 | crc8v | wclr | wlen | bclr | blen | stat | eclr | cfgr => exact ⟨_, rfl⟩
  | wpush a =>
    rw [exec_wpush_eq, execWpush]
    split <;> exact ⟨_, rfl⟩
  | bpush b =>
    rw [exec_bpush_eq, execBpush]
    split <;> exact ⟨_, rfl⟩
  | cfgw b =>
    rw [exec_cfgw_eq, execCfgw]
    split <;> exact ⟨_, rfl⟩
  | wget a =>
    rcases Nat.lt_or_ge a.toNat s.rawLen.toNat with hlt | hle
    · obtain ⟨w, hw⟩ := Option.isSome_iff_exists.1 ((hs.rawCell_isSome _).2 hlt)
      rw [exec_wget_of_lt_rawLen hlt, hw]
      exact ⟨_, rfl⟩
    · exact ⟨_, exec_wget_of_rawLen_le hle⟩
  | bget a =>
    rcases Nat.lt_or_ge a.toNat s.wireLen.toNat with hlt | hle
    · obtain ⟨b, hb⟩ := Option.isSome_iff_exists.1 ((hs.wireCell_isSome _).2 hlt)
      rw [exec_bget_of_lt_wireLen hlt, hb]
      exact ⟨_, rfl⟩
    · exact ⟨_, exec_bget_of_wireLen_le hle⟩
  | enc =>
    obtain ⟨ws, -, hw, -⟩ := hs.exists_rawIs
    exact ⟨_, hs.exec_enc hw⟩
  | frame cmd =>
    obtain ⟨ws, -, hw, -⟩ := hs.exists_rawIs
    by_cases hfull : s.rawLen.toNat = s.nw.val
    · exact ⟨_, hs.exec_frame_of_full cmd hfull⟩
    · exact ⟨_, hs.exec_frame_of_room hw cmd hfull⟩
  | dec =>
    obtain ⟨bs, -, hw, -⟩ := hs.exists_wireIs
    match hd : decodeBytes bs with
    | .error .framing => exact ⟨_, hs.exec_dec_framing hw hd⟩
    | .error (.checksum k) => exact ⟨_, hs.exec_dec_checksum hw hd⟩
    | .ok ws => exact ⟨_, hs.exec_dec_words hw hd⟩

theorem State.Inv.exists_runRequest {s : State} (hs : s.Inv) (w : ReqWord) : ∃ t, Machine.runRequest w s = .next t := by
  rcases illegal_or_ok w with hill | ⟨i, hd⟩
  · exact ⟨_, runRequest_of_illegal hill s⟩
  · rw [runRequest_of_ok hd]
    exact hs.exists_exec i

theorem State.Inv.exists_step {s : State} (hs : s.Inv) : ∃ t, step s = .next t := by
  match hin : s.inputs with
  | [] => exact ⟨s, step_of_no_event hin⟩
  | .request w :: rest =>
    rw [step_request hin]
    exact State.Inv.exists_runRequest (s := { s with inputs := rest }) hs w
  | .reset _ :: rest => exact ⟨_, step_reset hin⟩

/-! ## What every request leaves alone, and its one response (R23, R52) -/

theorem runRequest_outside {w : ReqWord} {s t : State} (h : runRequest w s = .next t) :
    t.nw = s.nw ∧ t.inputs = s.inputs ∧ ∃ r, t.responses = s.responses ++ [r] := by
  rcases runRequest_next_cases h with ⟨i, u, -, hu, val, rfl⟩ | ⟨e, -, val, rfl⟩ | ⟨e, -, val, rfl⟩
  · obtain ⟨hresp, hnw, hin⟩ := hu.outside
    exact ⟨hnw, hin, _, by rw [State.respond_responses, hresp]⟩
  · exact ⟨rfl, rfl, _, rfl⟩
  · exact ⟨rfl, rfl, _, rfl⟩

/-- Settles O55: the request goes on, and ends with one response. -/
theorem everyRequestIsAnswered : Obligations.EveryRequestIsAnswered := by
  intro s w rest hs hin
  obtain ⟨t, ht⟩ := State.Inv.exists_runRequest (s := { s with inputs := rest }) hs w
  obtain ⟨-, hrest, r, hr⟩ := runRequest_outside ht
  exact ⟨t, r, (step_request hin).trans ht, hrest, hr⟩

/-- A step takes one event, if there is one, and adds at most one response. -/
theorem step_outside {s t : State} (h : step s = .next t) :
    t.nw = s.nw ∧ t.inputs = s.inputs.tail ∧ t.responses.length ≤ s.responses.length + 1 := by
  rcases step_next_cases h with ⟨hin, rfl⟩ | ⟨w, rest, hin, hw⟩ | ⟨_, rest, hin, rfl⟩
  · exact ⟨rfl, by rw [hin, List.tail_nil], Nat.le_succ _⟩
  · obtain ⟨hnw, hrest, r, hr⟩ := runRequest_outside hw
    exact ⟨hnw, by rw [hrest, hin, List.tail_cons], by simp [hr]⟩
  · exact ⟨rfl, by rw [hin]; rfl, Nat.le_succ _⟩

/-- A run of `k` steps goes on, and takes `k` events. -/
theorem State.Inv.exists_run {s : State} (hs : s.Inv) (k : Nat) :
    ∃ t, Host.Core.run core k s = .next t ∧ t.Inv ∧ t.nw = s.nw ∧ t.inputs = s.inputs.drop k ∧
      t.responses.length ≤ s.responses.length + k := by
  induction k generalizing s with
  | zero => exact ⟨s, rfl, hs, rfl, rfl, le_rfl⟩
  | succ k ih =>
    obtain ⟨u, hu⟩ := hs.exists_step
    obtain ⟨hnw, hin, hresp⟩ := step_outside hu
    obtain ⟨t, ht, hinv, hnw', hin', hresp'⟩ := ih (stepKeepsInvariant s u hs hu)
    refine ⟨t, (run_succ_of_next core hu).trans ht, hinv, hnw'.trans hnw, ?_, by omega⟩
    rw [hin', hin, List.drop_tail]

/-- Settles O56: a run takes one event a step, so as many steps as events leave none. -/
theorem runsNeverStop : Obligations.RunsNeverStop := by
  intro s k hs
  obtain ⟨t, ht, hinv, hnw, hin, hresp⟩ := hs.exists_run k
  exact ⟨t, ht, hinv, hnw, fun hk => hin.trans (List.drop_eq_nil_of_le hk), hresp⟩

end Sys2Proof.Machine
end

section
/-! The access table: what each request may write, what CFG reaches, and the reads (10_state.md R17, R23, 20_memory.md R39). -/

namespace Sys2Proof.Machine

/-! ## Only the listed requests write (R23) -/

/-- The write columns of RAW, WIRE and CFG. -/
theorem Wrote.buffers_cfg {i : Instr} {s u : State} (h : Wrote i s u) :
    (i ≠ .wclr → (∀ a, i ≠ .wpush a) → i ≠ .dec → u.raw = s.raw ∧ u.rawLen = s.rawLen) ∧
    (i ≠ .bclr → (∀ b, i ≠ .bpush b) → i ≠ .enc → (∀ a, i ≠ .frame a) → u.wire = s.wire ∧ u.wireLen = s.wireLen) ∧
    ((∀ b, i ≠ .cfgw b) → u.cfg = s.cfg) := by
  cases h with
  | nothing | eclr => exact ⟨fun _ _ _ => ⟨rfl, rfl⟩, fun _ _ _ _ => ⟨rfl, rfl⟩, fun _ => rfl⟩
  | wclr => exact ⟨fun h => absurd rfl h, fun _ _ _ _ => ⟨rfl, rfl⟩, fun _ => rfl⟩
  | wpush w => exact ⟨fun _ h => absurd rfl (h w), fun _ _ _ _ => ⟨rfl, rfl⟩, fun _ => rfl⟩
  | dec => exact ⟨fun _ _ h => absurd rfl h, fun _ _ _ _ => ⟨rfl, rfl⟩, fun _ => rfl⟩
  | bclr => exact ⟨fun _ _ _ => ⟨rfl, rfl⟩, fun h => absurd rfl h, fun _ => rfl⟩
  | bpush b => exact ⟨fun _ _ _ => ⟨rfl, rfl⟩, fun _ h => absurd rfl (h b), fun _ => rfl⟩
  | enc => exact ⟨fun _ _ _ => ⟨rfl, rfl⟩, fun _ _ h => absurd rfl h, fun _ => rfl⟩
  | frame cmd => exact ⟨fun _ _ _ => ⟨rfl, rfl⟩, fun _ _ _ h => absurd rfl (h cmd), fun _ => rfl⟩
  | cfgw b => exact ⟨fun _ _ _ => ⟨rfl, rfl⟩, fun _ _ _ _ => ⟨rfl, rfl⟩, fun h => absurd rfl (h b)⟩

theorem Wrote.status_of_eclr {s u : State} (h : Wrote .eclr s u) : u.status = 0#16 := by
  cases h with
  | nothing _ _ h => cases h
  | eclr => rfl

/-- The response of a request that ended with an error carries its code (R143). -/
theorem code_of_endsWith {e : ErrorKind} {t u : State} {r : RspWord} (h : EndsWith e t u)
    (hr : t.responses = u.responses ++ [r]) : r.extractLsb' 24 8 = e.code := by
  obtain ⟨val, hval⟩ := endsWith_responses h
  obtain rfl := eq_of_append_eq _ _ _ (hr.symm.trans hval)
  exact rspWord_code _ _

theorem not_endsWith_of_eclr {s t : State} {e : ErrorKind} (h : exec .eclr s = .next t) : ¬ EndsWith e t s := by
  rw [exec_eclr_eq] at h
  cases h
  exact fun he => e.code_ne_ok (code_of_endsWith he rfl).symm

/-- Settles O43: a request ends having made its own writes; or with an error, having set the sticky bit and, for DEC,
emptied RAW. -/
theorem onlyListedRequestsWrite : Obligations.OnlyListedRequestsWrite := by
  intro i s t h
  rcases exec_next_cases h with ⟨u, hu, val, rfl⟩ | ⟨e, -, val, rfl⟩ | ⟨e, rfl, val, rfl⟩
  · obtain ⟨hresp, hnw, hin⟩ := hu.outside
    obtain ⟨hraw, hwire, hcfg⟩ := hu.buffers_cfg
    refine ⟨hnw, hin, hraw, hwire, hcfg, rspWord codeOk val, by rw [State.respond_responses, hresp], ?_⟩
    rw [rspWord_code]
    refine ⟨fun _ hi => hu.status_of_ne_eclr hi, ?_, fun h0 => absurd rfl h0⟩
    rintro rfl
    exact ⟨rfl, hu.status_of_eclr⟩
  · refine ⟨rfl, rfl, fun _ _ _ => ⟨rfl, rfl⟩, fun _ _ _ _ => ⟨rfl, rfl⟩, fun _ => rfl, rspWord e.code val, rfl, ?_⟩
    rw [rspWord_code]
    refine ⟨fun h0 => absurd h0 e.code_ne_ok, ?_, fun _ => rfl⟩
    rintro rfl
    exact absurd ⟨val, rfl⟩ (not_endsWith_of_eclr h)
  · refine ⟨rfl, rfl, fun _ _ h => absurd rfl h, fun _ _ _ _ => ⟨rfl, rfl⟩, fun _ => rfl, rspWord e.code val, rfl, ?_⟩
    rw [rspWord_code]
    exact ⟨fun h0 => absurd h0 e.code_ne_ok, nofun, fun _ => rfl⟩

/-! ## CFG reaches only FRAME (R17) -/

/-- The outcome with another CFG. -/
def withCfg (c : Byte) : Result → Result
  | .next t => .next (t.setCfg c)
  | .fault r => .fault r
  | .refused r => .refused r

theorem withCfg_withCells {α : Type} (c : Byte) (o : Option α) (k : α → Result) :
    withCfg c (withCells o k) = withCells o fun x => withCfg c (k x) := by
  cases o <;> rfl

theorem withCfg_ite (c : Byte) {p : Prop} [Decidable p] (a b : Result) :
    withCfg c (if p then a else b) = if p then withCfg c a else withCfg c b := by
  split <;> rfl

theorem execDec_setCfg (s : State) (c : Byte) : execDec (s.setCfg c) = withCfg c (execDec s) := by
  rw [execDec, execDec, withCfg_withCells]
  congr 1
  funext bs
  rcases decodeBytes bs with (_ | k) | ws <;> rfl

theorem exec_wget_eq (a : Word) (s : State) : exec (.wget a) s = execWget a s := rfl

theorem exec_bget_eq (a : Word) (s : State) : exec (.bget a) s = execBget a s := rfl

/-- No meaning but those of FRAME, CFGR and CFGW reads or writes CFG. -/
theorem exec_setCfg {i : Instr} (hframe : ∀ a, i ≠ .frame a) (hcfgr : i ≠ .cfgr) (hcfgw : ∀ b, i ≠ .cfgw b) (s : State)
    (c : Byte) : exec i (s.setCfg c) = withCfg c (exec i s) := by
  cases i with
  | frame a => exact absurd rfl (hframe a)
  | cfgr => exact absurd rfl hcfgr
  | cfgw b => exact absurd rfl (hcfgw b)
  | crc8 | crc8v | wclr | wlen | bclr | blen | stat | eclr => rfl
  | wpush a =>
    rw [exec_wpush_eq, exec_wpush_eq, execWpush, execWpush, withCfg_ite]
    rfl
  | bpush b =>
    rw [exec_bpush_eq, exec_bpush_eq, execBpush, execBpush, withCfg_ite]
    rfl
  | wget a =>
    rw [exec_wget_eq, exec_wget_eq, execWget, execWget, withCfg_ite, withCfg_withCells]
    rfl
  | bget a =>
    rw [exec_bget_eq, exec_bget_eq, execBget, execBget, withCfg_ite, withCfg_withCells]
    rfl
  | enc =>
    rw [exec_enc_eq, exec_enc_eq, execEnc, execEnc, withCfg_withCells]
    rfl
  | dec => exact execDec_setCfg s c

/-- Settles O44: with another CFG the outcome is the same but for CFG. -/
theorem configurationOnlyReachesFrame : Obligations.ConfigurationOnlyReachesFrame := by
  intro i s t c hframe hcfgr hcfgw h
  have hset := exec_setCfg hframe hcfgr hcfgw s c
  rwa [h] at hset

/-! ## The eight reads (R39) -/

/-- A read that answers code `OK` answers one value, in every state that differs from this one by its responses only. -/
theorem exists_read_answer {i : Instr} (hi : isRead i = true) {s t : State} {r : RspWord} (h : exec i s = .next t)
    (hr : t.responses = s.responses ++ [r]) (hok : r.extractLsb' 24 8 = 0#8) :
    ∃ val, ∀ rs, exec i { s with responses := rs } = answer val { s with responses := rs } := by
  have noError : ∀ e val, raise e val s ≠ .next t := fun e val he =>
    e.code_ne_ok ((code_of_endsWith (endsWith_of_raise he) hr).symm.trans hok)
  cases i with
  | crc8 | crc8v | wlen | blen => exact ⟨_, fun _ => rfl⟩
  | stat => exact ⟨s.readStatus, fun _ => rfl⟩
  | cfgr => exact ⟨zext16 s.readCfg, fun _ => rfl⟩
  | wget a =>
    rw [exec_wget_eq, execWget] at h
    split at h
    · exact absurd h (noError _ _)
    · obtain ⟨w, hw, -⟩ := (withCells_eq_next_iff _ _ _).1 h
      exact ⟨w, fun rs => (if_neg ‹_›).trans (congrArg (withCells · _) hw)⟩
  | bget a =>
    rw [exec_bget_eq, execBget] at h
    split at h
    · exact absurd h (noError _ _)
    · obtain ⟨b, hb, -⟩ := (withCells_eq_next_iff _ _ _).1 h
      exact ⟨zext16 b, fun rs => (if_neg ‹_›).trans (congrArg (withCells · _) hb)⟩
  | wclr | wpush | bclr | bpush | enc | frame | dec | eclr | cfgw => cases hi

/-- Settles O45: a read that succeeds only answers, and the response it adds reaches no read. -/
theorem readsHaveNoSideEffect : Obligations.ReadsHaveNoSideEffect := by
  intro i s t r hread h hr hok
  have hi : isRead i = true := by
    rcases hread with ⟨a, rfl⟩ | ⟨a, rfl⟩ | rfl | rfl | rfl | rfl | ⟨a, rfl⟩ | ⟨a, b, rfl⟩ <;> rfl
  obtain ⟨val, hval⟩ := exists_read_answer hi h hr hok
  have hs := hval s.responses
  rw [h] at hs
  cases hs
  obtain rfl := eq_of_append_eq _ _ _ hr
  exact ⟨rfl, hval _⟩

end Sys2Proof.Machine
end

section
/-! MemRead and MemWrite, and the loops of ENC, FRAME and DEC (20_memory.md R33, R34, 41_serializer.md R83, R84, 42_deserializer.md R93). -/

namespace Sys2Proof.Machine

/-! ## MemWrite (R34) -/

/-- Settles O46: a MemWrite is one write a byte; the addresses differ, so the order in which they are tested is free. -/
theorem memWriteIsBigEndian : Obligations.MemWriteIsBigEndian := by
  intro s addr v1 v2 v3
  refine ⟨fun i => ?_, fun i => ?_, fun i => ?_, rfl, rfl, rfl⟩
  · exact Cells.read_write s.wire addr v1 i
  · simp only [State.memWrite2_wire, Cells.writeFrom, Cells.read_write]
    grind
  · simp only [State.memWrite3_wire, Cells.writeFrom, Cells.read_write]
    grind

/-! ## MemRead (R33) -/

/-- Three bytes of a number determine it. -/
theorem eq_of_three_bytes {v u : BitVec 24} (h2 : v.extractLsb' 16 8 = u.extractLsb' 16 8)
    (h1 : v.extractLsb' 8 8 = u.extractLsb' 8 8) (h0 : v.extractLsb' 0 8 = u.extractLsb' 0 8) : v = u := by
  rw [BitVec.toNat_eq] at *
  simp only [BitVec.extractLsb'_toNat, Nat.shiftRight_eq_div_pow] at h2 h1 h0
  have := v.isLt
  have := u.isLt
  omega

/-- A byte just written is read back, where it lies below the fill count. -/
theorem State.wireCell_writeWire {s : State} {addr j : Nat} {bs : List Byte} (hj : j < bs.length)
    (hlen : addr + j < s.wireLen.toNat) : (s.writeWire addr bs).wireCell (addr + j) = bs[j]? := by
  rw [State.wireCell_eq, State.writeWire_wireLen, if_pos hlen, State.writeWire_wire, Cells.read_writeFrom,
    if_pos (by omega), Nat.add_sub_cancel_left]

/-- Settles O47: the bytes side by side; a MemRead then answers the number whose bytes the MemWrite stored. -/
theorem memReadIsBigEndian : Obligations.MemReadIsBigEndian := by
  refine ⟨fun s addr x y z hx => ⟨hx, fun hy => ⟨?_, State.memRead3_eq s addr x y z hx hy⟩⟩,
    fun s addr v1 v2 v3 => ⟨fun h => ?_, fun h => ?_, fun h => ?_⟩⟩
  · exact ⟨_, s.memRead2_eq addr x y hx hy, hiByte_join x y, loByte_join x y⟩
  · exact State.wireCell_writeWire (j := 0) Nat.one_pos h
  · rw [State.memRead2_eq (s.memWrite2 addr v2) addr (hiByte v2) (loByte v2), joinBytes_hi_lo]
    · exact State.wireCell_writeWire (j := 0) (by simp) (by omega)
    · exact State.wireCell_writeWire (j := 1) (by simp) (by omega)
  · obtain ⟨v, hv, h2, h1, h0⟩ := State.memRead3_eq (s.memWrite3 addr v3) addr (v3.extractLsb' 16 8)
      (v3.extractLsb' 8 8) (v3.extractLsb' 0 8) (State.wireCell_writeWire (j := 0) (by simp) (by omega))
      (State.wireCell_writeWire (j := 1) (by simp) (by omega)) (State.wireCell_writeWire (j := 2) (by simp) (by omega))
    rw [hv, eq_of_three_bytes h2 h1 h0]

/-! ## The write loop of ENC and FRAME -/

/-- The loop puts the wire-words of the words it reads one after the other. -/
theorem writeLoop_eq (ws : List Word) (h k : Nat) (s : State) (hw : ∀ j < ws.length, s.rawCell (k + j) = ws[j]?) :
    writeLoop h k ws.length s = some (s.writeWire (h + 3 * k) (encodeWords ws)) := by
  induction ws generalizing k s with
  | nil => rfl
  | cons w ws ih =>
    have hfirst : s.rawCell k = some w := hw 0 (Nat.succ_pos _)
    have hrest : ∀ j < ws.length, s.rawCell (k + 1 + j) = ws[j]? := fun j hj => by
      rw [Nat.add_assoc, Nat.add_comm 1 j]
      exact hw (j + 1) (Nat.succ_lt_succ hj)
    have hnext : h + 3 * (k + 1) = h + 3 * k + (wireWord w).length := rfl
    rw [List.length_cons, writeLoop, hfirst]
    simp only
    rw [State.memWrite3_wireWord, ih (k + 1) (s.writeWire _ _) hrest, hnext, State.writeWire_append]
    rfl

/-- The loop over the whole of RAW. -/
theorem State.RawIs.writeLoop {s : State} {ws : List Word} (hw : s.RawIs ws) (h : Nat) :
    Machine.writeLoop h 0 ws.length s = some (s.writeWire h (encodeWords ws)) :=
  writeLoop_eq ws h 0 s fun j _ => by rw [Nat.zero_add, hw]

/-- Settles O48: the loop writes `encode(RAW)` from address 0, and `3*RAWLEN` is its length. -/
theorem encLoopIsEnc : Obligations.EncLoopIsEnc := by
  intro s hs
  obtain ⟨ws, hlen, hw, -⟩ := hs.exists_rawIs
  have hbytes : (encodeWords ws).length = 3 * s.rawLen.toNat := by rw [encodeWords_length, hlen]
  rw [hs.exec_enc hw, encLoop, State.putFrame, hbytes]
  simp only [← hlen, hw.writeLoop, withCells_some]

/-- What FRAME writes before its loop is the command field (R57). -/
theorem frameLoop_head (cmd : Word) (s : State) :
    (if s.cmdCrc then (s.memWrite2 0 cmd).memWrite1 2 (crcWord cmd) else s.memWrite2 0 cmd) =
      s.writeWire 0 (frameHead cmd s.cmdCrc) := by
  cases s.cmdCrc <;> rfl

theorem frameHead_length (cmd : Word) (c : Bool) : (frameHead cmd c).length = headLength c := by
  cases c <;> rfl

/-- The encoded words behind the command field are the frame (R81). -/
theorem State.writeWire_frameBytes (s : State) (cmd : Word) (ws : List Word) (c : Bool) :
    (s.writeWire 0 (frameHead cmd c)).writeWire (headLength c) (encodeWords ws) =
      s.writeWire 0 (frameBytes cmd ws c) := by
  rw [frameBytes, ← State.writeWire_append, frameHead_length, Nat.zero_add]

/-- Settles O49: the command field, then the loop writes `encode(RAW)` behind it. -/
theorem frameLoopIsFrame : Obligations.FrameLoopIsFrame := by
  intro s cmd hs
  obtain ⟨ws, hlen, hw, -⟩ := hs.exists_rawIs
  have hh : (if s.cmdCrc then 3 else 2) = headLength s.cmdCrc := rfl
  have hbytes : (frameBytes cmd ws s.cmdCrc).length = headLength s.cmdCrc + 3 * s.rawLen.toNat := by
    rw [frameBytes_length, hlen]
  have hw' : (s.writeWire 0 (frameHead cmd s.cmdCrc)).RawIs ws := hw
  rw [exec_frame_eq, execFrame, frameLoop, (hs.rawWords_of_rawIs hw).1]
  simp only [hh, frameLoop_head]
  split
  · rfl
  · rw [withCells_some, State.putFrame, hbytes, ← hlen, hw'.writeLoop, withCells_some, State.writeWire_frameBytes]

/-! ## The loops of DEC -/

/-- The index a failed decode reports. -/
def badIndex : Except DecodeError (List Word) → Option Nat
  | .error (.checksum k) => some k
  | .error .framing => none
  | .ok _ => none

theorem badIndex_map (d : Except DecodeError (List Word)) (f : List Word → List Word) :
    badIndex (d.map f) = badIndex d := by
  rcases d with (_ | _) | _ <;> rfl

/-- The bytes of WIRE from wire-word `k` on. -/
def State.WireFrom (s : State) (k : Nat) (bs : List Byte) : Prop := ∀ j < bs.length, s.wireCell (3 * k + j) = bs[j]?

theorem State.WireFrom.cons {s : State} {k : Nat} {hi lo crc : Byte} {rest : List Byte}
    (h : s.WireFrom k (hi :: lo :: crc :: rest)) :
    s.wireCell (3 * k) = some hi ∧ s.wireCell (3 * k + 1) = some lo ∧ s.wireCell (3 * k + 2) = some crc ∧
    s.WireFrom (k + 1) rest := by
  refine ⟨h 0 (by simp), h 1 (by simp), h 2 (by simp), fun j hj => ?_⟩
  rw [show 3 * (k + 1) + j = 3 * k + (j + 3) by omega]
  exact h (j + 3) (by simpa using hj)

/-- The check loop tests the wire-words as `decode` does, and finds the same first failure. -/
theorem checkLoop_eq {s : State} {m k : Nat} {bs : List Byte} (hw : s.WireFrom k bs) (hm : bs.length = 3 * m) :
    checkLoop s k m = some (badIndex (decodeFrom k bs)) := by
  induction m generalizing k bs with
  | zero =>
    obtain rfl := List.eq_nil_of_length_eq_zero hm
    rfl
  | succ m ih =>
    obtain ⟨hi, lo, crc, rest, rfl⟩ := exists_wireWord (by omega : 2 < bs.length)
    obtain ⟨h0, h1, h2, hrest⟩ := hw.cons
    obtain ⟨ww, hww, ehi, elo, ecrc⟩ := s.memRead3_eq _ hi lo crc h0 h1 h2
    rw [checkLoop, hww, decodeFrom_cons]
    simp only [ehi, elo, ecrc]
    by_cases hv : crc8 hi lo = crc
    · rw [if_neg (not_not.2 hv), if_pos hv, ih hrest (by simp at hm; omega), badIndex_map]
    · rw [if_pos hv, if_neg hv]
      rfl

/-- The load loop stores the words whose wire-words it reads. -/
theorem loadLoop_eq {s : State} (ws : List Word) (k : Nat) (hw : s.WireFrom k (encodeWords ws)) :
    loadLoop k ws.length s = some (s.writeRaw k ws) := by
  induction ws generalizing k s with
  | nil => rfl
  | cons w ws ih =>
    obtain ⟨h0, h1, -, hrest⟩ := State.WireFrom.cons (encodeWords_cons w ws ▸ hw)
    rw [List.length_cons, loadLoop, s.memRead2_eq _ _ _ h0 h1, joinBytes_hi_lo]
    exact ih (k + 1) hrest

/-- A decode of whole wire-words is no framing error (R90). -/
theorem decodeFrom_ne_framing {m : Nat} {bs : List Byte} (hm : bs.length = 3 * m) (k : Nat) :
    decodeFrom k bs ≠ .error .framing := by
  induction m generalizing k bs with
  | zero =>
    obtain rfl := List.eq_nil_of_length_eq_zero hm
    exact nofun
  | succ m ih =>
    obtain ⟨hi, lo, crc, rest, rfl⟩ := exists_wireWord (by omega : 2 < bs.length)
    have hrest := ih (bs := rest) (by simp at hm; omega) (k + 1)
    rw [decodeFrom_cons]
    split
    · rcases hd : decodeFrom (k + 1) rest with (_ | _) | _
      · exact absurd hd hrest
      · exact nofun
      · exact nofun
    · exact nofun

theorem decodeBytes_framing_iff (bs : List Byte) : decodeBytes bs = .error .framing ↔ bs.length % 3 ≠ 0 := by
  refine ⟨fun h hmod => ?_, decodeBytes_framing bs⟩
  rw [decodeBytes_of_mod bs hmod] at h
  exact decodeFrom_ne_framing (m := bs.length / 3) (by omega) 0 h

/-- Settles O50: the check loop finds what `decode` reports; when it finds nothing, the load loop stores the words. -/
theorem decLoopsAreDec : Obligations.DecLoopsAreDec := by
  intro s hs
  obtain ⟨bs, hlen, hw, -⟩ := hs.exists_wireIs
  have hfrom : s.WireFrom 0 bs := fun j _ => by rw [Nat.mul_zero, Nat.zero_add, hw]
  rw [decLoop]
  simp only [← hlen]
  split
  · exact (hs.exec_dec_framing hw (decodeBytes_framing bs ‹_›)).symm
  · have hmod : bs.length % 3 = 0 := not_not.1 ‹_›
    rw [checkLoop_eq hfrom (by omega), ← decodeBytes_of_mod bs hmod, withCells_some]
    match hd : decodeBytes bs with
    | .error .framing => exact absurd hmod ((decodeBytes_framing_iff bs).1 hd)
    | .error (.checksum k) => exact (hs.exec_dec_checksum hw hd).symm
    | .ok ws =>
      obtain rfl := encodeWords_of_decodeBytes hd
      have hn : (encodeWords ws).length / 3 = ws.length := by
        rw [encodeWords_length, Nat.mul_div_cancel_left _ (by omega)]
      rw [hs.exec_dec_words hw hd, hn]
      simp only [badIndex, loadLoop_eq ws 0 hfrom, withCells_some]
      rfl

end Sys2Proof.Machine
end

section
/-! What a state reads as determines it, and the codec across the two buffers (70_reset_and_hazards.md R172, 30_encoding.md R60, 42_deserializer.md R92). -/

namespace Sys2Proof.Machine

/-! ## Buffers under the invariant are what they read as (R11, R13) -/

/-- Cells that list the indices below `n` and read the same there are the same. -/
theorem Cells.eq_of_read {α : Type} {c d : Cells α} {n : Nat} (hc : c.map Prod.fst = List.range n)
    (hd : d.map Prod.fst = List.range n) (h : ∀ i < n, Cells.read c i = Cells.read d i) : c = d := by
  obtain ⟨hcwf, hcread⟩ := (Cells.keys_eq_range_iff c n).1 hc
  obtain ⟨hdwf, hdread⟩ := (Cells.keys_eq_range_iff d n).1 hd
  refine Cells.ext_read c d hcwf hdwf fun i => ?_
  by_cases hi : i < n
  · exact h i hi
  · rw [Option.not_isSome_iff_eq_none.1 (mt (hcread i).1 hi), Option.not_isSome_iff_eq_none.1 (mt (hdread i).1 hi)]

section
variable {s t : State} (hs : s.Inv) (ht : t.Inv)
include hs ht

theorem State.Inv.raw_eq_of_rawIs {ws : List Word} (hws : s.RawIs ws) (hwt : t.RawIs ws) :
    s.raw = t.raw ∧ s.rawLen = t.rawLen := by
  have hlen : s.rawLen = t.rawLen := BitVec.eq_of_toNat_eq
    ((hs.rawWords_of_rawIs hws).2.symm.trans (ht.rawWords_of_rawIs hwt).2)
  have ⟨_, _, _, _, hskeys, _⟩ := hs
  have ⟨_, _, _, _, htkeys, _⟩ := ht
  refine ⟨Cells.eq_of_read hskeys (hlen ▸ htkeys) fun i hi => ?_, hlen⟩
  have hcell : s.rawCell i = t.rawCell i := (hws i).trans (hwt i).symm
  rwa [State.rawCell_eq, State.rawCell_eq, ← hlen, if_pos hi, if_pos hi] at hcell

theorem State.Inv.wire_eq_of_wireIs {bs : List Byte} (hbs : s.WireIs bs) (hbt : t.WireIs bs) :
    s.wire = t.wire ∧ s.wireLen = t.wireLen := by
  have hlen : s.wireLen = t.wireLen := BitVec.eq_of_toNat_eq
    ((hs.wireBytes_of_wireIs hbs).2.symm.trans (ht.wireBytes_of_wireIs hbt).2)
  have ⟨_, _, _, _, _, hskeys⟩ := hs
  have ⟨_, _, _, _, _, htkeys⟩ := ht
  refine ⟨Cells.eq_of_read hskeys (hlen ▸ htkeys) fun i hi => ?_, hlen⟩
  have hcell : s.wireCell i = t.wireCell i := (hbs i).trans (hbt i).symm
  rwa [State.wireCell_eq, State.wireCell_eq, ← hlen, if_pos hi, if_pos hi] at hcell

end

/-- What a whole buffer reads as, given back as its cells. -/
theorem State.Inv.rawIs_of_rawWords {s : State} (hs : s.Inv) {ws : List Word} (h : s.rawWords = some ws) :
    s.RawIs ws := by
  obtain ⟨vs, -, hv, hr⟩ := hs.exists_rawIs
  obtain rfl := Option.some.inj (hr.symm.trans h)
  exact hv

theorem State.Inv.wireIs_of_wireBytes {s : State} (hs : s.Inv) {bs : List Byte} (h : s.wireBytes = some bs) :
    s.WireIs bs := by
  obtain ⟨vs, -, hv, hr⟩ := hs.exists_wireIs
  obtain rfl := Option.some.inj (hr.symm.trans h)
  exact hv

/-- Settles O59: the buffers are determined by what they read as, and the masks of STATUS and CFG drop nothing. -/
theorem observationDeterminesState : Obligations.ObservationDeterminesState := by
  intro s t hs ht hnw hin hobs
  obtain ⟨ws, -, hws, hwords⟩ := hs.exists_rawIs
  obtain ⟨bs, -, hbs, hbytes⟩ := hs.exists_wireIs
  have hwt : t.RawIs ws := ht.rawIs_of_rawWords ((congrArg Observation.raw hobs).symm.trans hwords)
  have hbt : t.WireIs bs := ht.wireIs_of_wireBytes ((congrArg Observation.wire hobs).symm.trans hbytes)
  obtain ⟨hraw, hrawLen⟩ := hs.raw_eq_of_rawIs ht hws hwt
  obtain ⟨hwire, hwireLen⟩ := hs.wire_eq_of_wireIs ht hbs hbt
  have hstatus : s.status = t.status :=
    hs.status_mask.symm.trans ((congrArg Observation.status hobs).trans ht.status_mask)
  have hcfg : s.cfg = t.cfg := hs.cfg_mask.symm.trans ((congrArg Observation.cfg hobs).trans ht.cfg_mask)
  have hresp : s.responses = t.responses := congrArg Observation.responses hobs
  cases s
  cases t
  simp only [State.mk.injEq]
  exact ⟨hnw, hraw, hrawLen, hwire, hwireLen, hstatus, hcfg, hin, hresp⟩

/-! ## ENC or FRAME, then DEC (R60, R92) -/

/-- The frame of the words of RAW fits WIRE when RAW has room (R84). -/
theorem State.Inv.frameBytes_fits {s : State} (hs : s.Inv) {ws : List Word} (hw : s.RawIs ws) (cmd : Word)
    (hroom : s.rawLen.toNat ≠ s.nw.val) : (frameBytes cmd ws s.cmdCrc).length ≤ 3 * s.nw.val := by
  rw [frameBytes_length, (hs.rawWords_of_rawIs hw).2]
  exact Nat.not_lt.1 (mt hs.frame_overflows_iff.1 hroom)

theorem State.Inv.encodeWords_fits {s : State} (hs : s.Inv) {ws : List Word} (hw : s.RawIs ws) :
    (encodeWords ws).length ≤ 3 * s.nw.val := by
  rw [encodeWords_length, (hs.rawWords_of_rawIs hw).2]
  exact Nat.mul_le_mul_left 3 hs.1

/-- Bytes that fit WIRE, put there, are what is readable. -/
theorem State.putFrame_wireIs_of_fits (s : State) {bs : List Byte} (h : bs.length ≤ 3 * s.nw.val) :
    (s.putFrame bs).WireIs bs :=
  s.putFrame_wireIs bs (by have := capacity_bounds s; omega)

/-- DEC of a buffer that decodes to words that fit RAW (R93): they are in RAW, and the invariant holds. -/
theorem State.Inv.dec_words {s : State} (hs : s.Inv) {bs : List Byte} {ws : List Word} (hw : s.WireIs bs)
    (hd : decodeBytes bs = .ok ws) :
    exec .dec s = answer (natVal ws.length) (s.putWords ws) ∧ (s.putWords ws).Inv ∧ (s.putWords ws).RawIs ws := by
  have hlen := length_of_decodeBytes hd
  have hbs := (hs.wireBytes_of_wireIs hw).2
  have hcap := capacity_bounds s
  have ⟨_, hwire, _⟩ := hs
  exact ⟨hs.exec_dec_words hw hd, hs.putWords (by omega), s.putWords_rawIs ws (by omega)⟩

/-- Settles O57: DEC decodes what ENC put in WIRE to the words of RAW, and RAW is determined by its words. -/
theorem encThenDecRestoresRaw : Obligations.EncThenDecRestoresRaw := by
  intro s hs
  obtain ⟨ws, -, hw, -⟩ := hs.exists_rawIs
  have hfits := hs.encodeWords_fits hw
  have hput : (s.putFrame (encodeWords ws)).Inv := hs.putFrame hfits
  obtain ⟨hdec, hinv, hraw⟩ := State.Inv.dec_words (s := (s.putFrame (encodeWords ws)).respond codeOk _) hput
    (s.putFrame_wireIs_of_fits hfits) (decodeBytes_encodeWords ws)
  obtain ⟨hcells, hcount⟩ := State.Inv.raw_eq_of_rawIs hinv hs hraw hw
  exact ⟨_, _, hs.exec_enc hw, hdec, hcells, hcount, rfl, rfl, rfl, rfl⟩

/-- FRAME with room (R84): its one answer is the length of the frame, its one write is WIRE. -/
theorem State.Inv.frame_of_room {s : State} (hs : s.Inv) {ws : List Word} (hw : s.RawIs ws) (cmd : Word)
    (hroom : s.rawLen.toNat ≠ s.nw.val) :
    ∃ t, exec (.frame cmd) s = .next t ∧ t.Inv ∧ t.WireIs (frameBytes cmd ws s.cmdCrc) ∧
      t = { s with wire := t.wire, wireLen := t.wireLen, responses := s.responses ++
              [rspWord codeOk (natVal (frameBytes cmd ws s.cmdCrc).length)] } := by
  have hfits := hs.frameBytes_fits hw cmd hroom
  have hlen : headLength s.cmdCrc + 3 * s.rawLen.toNat = (frameBytes cmd ws s.cmdCrc).length := by
    rw [frameBytes_length, (hs.rawWords_of_rawIs hw).2]
  have hput : (s.putFrame (frameBytes cmd ws s.cmdCrc)).Inv := hs.putFrame hfits
  rw [hs.exec_frame_of_room hw cmd hroom, hlen]
  exact ⟨_, rfl, hput, s.putFrame_wireIs_of_fits hfits, rfl⟩

/-- Settles O58: the frame FRAME put in WIRE decodes to the command and the words, or without CRC is a framing error. -/
theorem decOfOutboundFrame : Obligations.DecOfOutboundFrame := by
  intro s cmd ws hs hw hroom
  obtain ⟨t, hframe, ht, hwire, -⟩ := hs.frame_of_room hw cmd hroom.ne
  cases hc : s.cmdCrc with
  | false =>
    have hdec := ht.exec_dec_framing hwire (hc ▸ decodeBytes_frameBytes_false cmd ws)
    refine ⟨t, _, hframe, hdec, fun _ => ?_, fun h => absurd (hc.symm.trans h) Bool.false_ne_true⟩
    rw [State.setRawLen_zero]
    rfl
  | true =>
    obtain ⟨hdec, -, hraw⟩ := ht.dec_words hwire (hc ▸ decodeBytes_frameBytes_true cmd ws)
    exact ⟨t, _, hframe, hdec, fun h => absurd (h.symm.trans hc) Bool.false_ne_true, fun _ => ⟨hraw, rfl, rfl⟩⟩

end Sys2Proof.Machine
end

section
/-! The host procedures over the block: performCommand and performCommandAndRead (45_host_protocol.md R122, R123). -/

namespace Sys2Proof.Machine

/-- `t` is `s` with `ws` in RAW and `bs` in WIRE, but for the responses. -/
structure Holding (s : State) (ws : List Word) (bs : List Byte) (t : State) : Prop where
  inv : t.Inv
  raw : t.RawIs ws
  wire : t.WireIs bs
  nw : t.nw = s.nw
  status : t.status = s.status
  cfg : t.cfg = s.cfg
  inputs : t.inputs = s.inputs

theorem State.Inv.exists_holding {s : State} (hs : s.Inv) : ∃ ws bs, Holding s ws bs s := by
  obtain ⟨ws, -, hw, -⟩ := hs.exists_rawIs
  obtain ⟨bs, -, hb, -⟩ := hs.exists_wireIs
  exact ⟨ws, bs, hs, hw, hb, rfl, rfl, rfl, rfl⟩

/-- Presenting a request is running its meaning and taking its response. -/
theorem ask_of_exec {i : Instr} {s t : State} {r : RspWord} (h : exec i s = .next t)
    (hr : t.responses = s.responses ++ [r]) : ask i s = .done r t :=
  ask_of_next ((runRequest_encode i s).trans h) hr

/-- The entries of a list with one more at its end. -/
theorem getElem?_snoc {α : Type} (l : List α) (a : α) (i : Nat) :
    (l ++ [a])[i]? = if i = l.length then some a else l[i]? := by
  by_cases hi : i = l.length
  · rw [if_pos hi, hi, List.getElem?_concat_length]
  · rw [if_neg hi, List.getElem?_append]
    split
    · rfl
    · rw [List.getElem?_eq_none (by simp; omega), List.getElem?_eq_none (by omega)]

theorem askAll_cons_of_all_done {i : Instr} {is : List Instr} {s t u : State} {r : RspWord} {rs : List RspWord}
    (h : ask i s = .done r t) (hs : askAll is t = .done rs u) : askAll (i :: is) s = .done (r :: rs) u := by
  rw [askAll_cons_of_done h, hs, HostRun.done_andThen]

section
variable {s t : State} {ws : List Word} {bs : List Byte} (ht : Holding s ws bs t)
include ht

theorem Holding.rawLen : t.rawLen.toNat = ws.length := (ht.inv.rawWords_of_rawIs ht.raw).2.symm

theorem Holding.wireLen : t.wireLen.toNat = bs.length := (ht.inv.wireBytes_of_wireIs ht.wire).2.symm

theorem Holding.raw_fits : ws.length ≤ s.nw.val := by
  rw [← ht.rawLen, ← ht.nw]
  exact ht.inv.1

theorem Holding.wire_fits : bs.length ≤ 3 * s.nw.val := by
  rw [← ht.wireLen, ← ht.nw]
  exact ht.inv.2.1

/-! ## One request -/

theorem Holding.ask_wclr : ∃ r u, ask .wclr t = .done r u ∧ Holding s [] bs u := by
  refine ⟨_, _, ask_of_exec (exec_wclr_eq t) rfl, ht.inv.setRawLen_zero, fun i => ?_, ht.wire, ht.nw, ht.status, ht.cfg,
    ht.inputs⟩
  exact State.rawCell_of_rawLen_le (s := t.setRawLen 0#16) (Nat.zero_le i)

theorem Holding.ask_bclr : ∃ r u, ask .bclr t = .done r u ∧ Holding s ws [] u := by
  refine ⟨_, _, ask_of_exec (exec_bclr_eq t) rfl, ht.inv.setWireLen_zero, ht.raw, fun i => ?_, ht.nw, ht.status, ht.cfg,
    ht.inputs⟩
  exact State.wireCell_of_wireLen_le (s := t.setWireLen 0#16) (Nat.zero_le i)

theorem Holding.ask_wpush (w : Word) (hroom : ws.length < s.nw.val) :
    ∃ r u, ask (.wpush w) t = .done r u ∧ Holding s (ws ++ [w]) bs u := by
  have hcap := capacity_bounds s
  have hlt : t.rawLen.toNat < t.nw.val := by rwa [ht.rawLen, ht.nw]
  refine ⟨_, _, ask_of_exec (exec_wpush_of_room w hlt) rfl, ht.inv.pushRaw w hlt.ne, fun i => ?_, ht.wire, ht.nw,
    ht.status, ht.cfg, ht.inputs⟩
  refine (t.rawCell_push w (by rw [ht.rawLen]; omega) i).trans ?_
  rw [ht.raw i, ht.rawLen, getElem?_snoc]

theorem Holding.ask_bpush (b : Byte) (hroom : bs.length < 3 * s.nw.val) :
    ∃ r u, ask (.bpush b) t = .done r u ∧ Holding s ws (bs ++ [b]) u := by
  have hcap := capacity_bounds s
  have hlt : t.wireLen.toNat < 3 * t.nw.val := by rwa [ht.wireLen, ht.nw]
  refine ⟨_, _, ask_of_exec (exec_bpush_of_room b hlt) rfl, ht.inv.pushWire b hlt.ne, ht.raw, fun i => ?_, ht.nw,
    ht.status, ht.cfg, ht.inputs⟩
  refine (t.wireCell_push b (by rw [ht.wireLen]; omega) i).trans ?_
  rw [ht.wire i, ht.wireLen, getElem?_snoc]

theorem Holding.cmdCrc : t.cmdCrc = s.cmdCrc := by
  rw [State.cmdCrc, ht.cfg, State.cmdCrc]

theorem Holding.ask_frame_of_room (cmd : Word) (hroom : ws.length < s.nw.val) :
    ∃ u, ask (.frame cmd) t = .done (rspWord codeOk (natVal (frameBytes cmd ws s.cmdCrc).length)) u ∧
      Holding s ws (frameBytes cmd ws s.cmdCrc) u := by
  have hne : t.rawLen.toNat ≠ t.nw.val := by
    rw [ht.rawLen, ht.nw]
    exact hroom.ne
  obtain ⟨u, hexec, hu, hwire, heq⟩ := ht.inv.frame_of_room ht.raw cmd hne
  rw [ht.cmdCrc] at hwire heq
  exact ⟨u, ask_of_exec hexec (congrArg State.responses heq), hu,
    fun i => (congrArg (State.rawCell · i) heq).trans (ht.raw i), hwire, (congrArg State.nw heq).trans ht.nw,
    (congrArg State.status heq).trans ht.status, (congrArg State.cfg heq).trans ht.cfg,
    (congrArg State.inputs heq).trans ht.inputs⟩

theorem Holding.ask_frame_of_full (cmd : Word) (hfull : ws.length = s.nw.val) :
    ∃ u, ask (.frame cmd) t = .done (rspWord ErrorKind.overflow.code 0#16) u ∧
      u.status = s.status ||| ErrorKind.overflow.statusBit := by
  have hfull' : t.rawLen.toNat = t.nw.val := by rwa [ht.rawLen, ht.nw]
  refine ⟨_, ask_of_exec (ht.inv.exec_frame_of_full cmd hfull') rfl, ?_⟩
  rw [State.respond_status, State.recordError_status, ht.status]

theorem Holding.ask_dec_of_words {vs : List Word} (hd : decodeBytes bs = .ok vs) :
    ∃ u, ask .dec t = .done (rspWord codeOk (natVal vs.length)) u ∧ Holding s vs bs u := by
  obtain ⟨hexec, hinv, hraw⟩ := ht.inv.dec_words ht.wire hd
  exact ⟨_, ask_of_exec hexec rfl, hinv, hraw, ht.wire, ht.nw, ht.status, ht.cfg, ht.inputs⟩

/-- `DEC` that raises (R93): RAW is emptied, WIRE stays, the sticky bit is set. -/
theorem Holding.ask_dec_of_raise {e : ErrorKind} {val : Word} (h : exec .dec t = raise e val (t.setRawLen 0#16)) :
    ∃ u, ask .dec t = .done (rspWord e.code val) u ∧ u.rawLen = 0#16 ∧ u.WireIs bs ∧
      u.status = s.status ||| e.statusBit ∧ u.responses.getLast? = some (rspWord e.code val) := by
  refine ⟨_, ask_of_exec h rfl, rfl, ht.wire, ?_, List.getLast?_concat⟩
  rw [State.respond_status, State.recordError_status, State.setRawLen_status, ht.status]

/-! ## Runs of requests -/

theorem Holding.askAll_bpush (ds : List Byte) (hroom : bs.length + ds.length ≤ 3 * s.nw.val) :
    ∃ rs u, askAll (ds.map fun b => .bpush b) t = .done rs u ∧ Holding s ws (bs ++ ds) u := by
  induction ds generalizing bs t with
  | nil => exact ⟨[], t, rfl, by rwa [List.append_nil]⟩
  | cons d ds ih =>
    simp only [List.length_cons] at hroom
    obtain ⟨r, u, hask, hu⟩ := ht.ask_bpush d (by omega)
    obtain ⟨rs, v, hall, hv⟩ := ih hu (by simp; omega)
    exact ⟨r :: rs, v, askAll_cons_of_all_done hask hall, by rwa [List.append_cons]⟩

/-- R123, before `DEC`: WIRE holds the bytes pushed. -/
theorem Holding.askAll_pushRequests (ds : List Byte) (hroom : ds.length ≤ 3 * s.nw.val) :
    ∃ rs u, askAll (pushRequests ds) t = .done rs u ∧ Holding s ws ds u := by
  obtain ⟨r, u, hask, hu⟩ := ht.ask_bclr
  obtain ⟨rs, v, hall, hv⟩ := hu.askAll_bpush ds (by simpa using hroom)
  exact ⟨r :: rs, v, askAll_cons_of_all_done hask hall, hv⟩

/-- R122, before `FRAME`: RAW holds the argument, if there is one. -/
theorem Holding.askAll_argumentRequests (arg : Option Word) :
    ∃ rs u, askAll (argumentRequests arg) t = .done rs u ∧ Holding s arg.toList bs u := by
  obtain ⟨r, u, hask, hu⟩ := ht.ask_wclr
  cases arg with
  | none => exact ⟨[r], u, askAll_cons_of_all_done hask (askAll_nil u), hu⟩
  | some w =>
    obtain ⟨q, v, hpush, hv⟩ := hu.ask_wpush w (capacity_bounds s).1
    exact ⟨[r, q], v, askAll_cons_of_all_done hask (askAll_cons_of_all_done hpush (askAll_nil v)), hv⟩

/-- The responses are not held. -/
theorem Holding.withResponses (rs : List RspWord) : Holding s ws bs { t with responses := rs } :=
  ⟨ht.inv, ht.raw, ht.wire, ht.nw, ht.status, ht.cfg, ht.inputs⟩

end

/-- What a read of a buffer answers (R102, R106). -/
def readValue (ws : List Word) (bs : List Byte) : Instr → Word
  | .wget a => ws[a.toNat]?.getD 0#16
  | .bget a => zext16 (bs[a.toNat]?.getD 0#8)
  | _ => 0#16

section
variable {s t : State} {ws : List Word} {bs : List Byte} (ht : Holding s ws bs t)
include ht

theorem Holding.exec_wget {a : Word} (ha : a.toNat < ws.length) :
    exec (.wget a) t = .next (t.respond codeOk (readValue ws bs (.wget a))) := by
  rw [exec_wget_of_lt_rawLen (ht.rawLen ▸ ha), ht.raw, readValue, List.getElem?_eq_getElem ha]
  rfl

theorem Holding.exec_bget {a : Word} (ha : a.toNat < bs.length) :
    exec (.bget a) t = .next (t.respond codeOk (readValue ws bs (.bget a))) := by
  rw [exec_bget_of_lt_wireLen (ht.wireLen ▸ ha), ht.wire, readValue, List.getElem?_eq_getElem ha]
  rfl

theorem Holding.askAll_reads {is : List Instr}
    (h : ∀ i ∈ is, ∀ u, Holding s ws bs u → exec i u = .next (u.respond codeOk (readValue ws bs i))) :
    ∃ u, askAll is t = .done (is.map fun i => rspWord codeOk (readValue ws bs i)) u ∧ Holding s ws bs u := by
  refine ⟨_, Machine.askAll_reads is (readValue ws bs) t fun i hi rs => ?_, ht.withResponses _⟩
  rw [runRequest_encode, h i hi _ (ht.withResponses rs)]
  rfl

end

/-- Looking a list up at every index below its length gives it back. -/
theorem map_range_length {α : Type} (l : List α) {g : Nat → α} (h : ∀ k (hk : k < l.length), g k = l[k]) :
    (List.range l.length).map g = l := by
  refine List.ext_getElem (by simp) fun k _ hk => ?_
  rw [List.getElem_map, List.getElem_range, h k hk]

theorem loByte_zext16 (b : Byte) : loByte (zext16 b) = b := by
  refine BitVec.eq_of_getLsbD_eq fun i hi => ?_
  rw [loByte, BitVec.getLsbD_extractLsb', zext16, BitVec.getLsbD_setWidth]
  simp [hi, show i < 16 by omega]

section
variable {s t : State} {ws : List Word} {bs : List Byte} (ht : Holding s ws bs t)
include ht

/-- R122, after `FRAME`: the bytes of WIRE, in order. -/
theorem Holding.askAll_unloadRequests :
    ∃ rs u, askAll (unloadRequests bs.length) t = .done rs u ∧ rs.map (fun q => loByte (rspVal q)) = bs ∧
      Holding s ws bs u := by
  have hcap := capacity_bounds s
  have hfits := ht.wire_fits
  have index : ∀ k < bs.length, (natVal k).toNat = k := fun k hk => natVal_toNat k (by omega)
  obtain ⟨u, hall, hu⟩ := ht.askAll_reads (is := unloadRequests bs.length) fun i hi v hv => by
    obtain ⟨k, hk, rfl⟩ := List.mem_map.1 hi
    have hlt := List.mem_range.1 hk
    exact hv.exec_bget (by rwa [index k hlt])
  refine ⟨_, u, hall, ?_, hu⟩
  rw [List.map_map, unloadRequests, List.map_map]
  refine map_range_length bs fun k hk => ?_
  simp [readValue, loByte_zext16, index k hk, hk]

/-- R123, after `DEC`: the words of RAW, in order. -/
theorem Holding.askAll_collectRequests :
    ∃ rs u, askAll (collectRequests ws.length) t = .done rs u ∧ rs.map rspVal = ws ∧ Holding s ws bs u := by
  have hcap := capacity_bounds s
  have hfits := ht.raw_fits
  have index : ∀ k < ws.length, (natVal k).toNat = k := fun k hk => natVal_toNat k (by omega)
  obtain ⟨u, hall, hu⟩ := ht.askAll_reads (is := collectRequests ws.length) fun i hi v hv => by
    obtain ⟨k, hk, rfl⟩ := List.mem_map.1 hi
    have hlt := List.mem_range.1 hk
    exact hv.exec_wget (by rwa [index k hlt])
  refine ⟨_, u, hall, ?_, hu⟩
  rw [List.map_map, collectRequests, List.map_map]
  refine map_range_length ws fun k hk => ?_
  simp [readValue, index k hk, hk]

/-! ## performCommand (R122) -/

/-- FRAME has no room when the argument fills RAW: nothing is written to the transport (log 19). -/
theorem Holding.performCommand_of_full (tr : Transport) (cmd : Word) {arg : Option Word}
    (hfull : arg.toList.length = s.nw.val) :
    ∃ u, performCommand tr cmd arg t = .failed (.code 0x05#8) u ∧ u.status = s.status ||| 0x0010#16 := by
  obtain ⟨rs, v, hargs, hv⟩ := ht.askAll_argumentRequests arg
  obtain ⟨u, hframe, hstatus⟩ := hv.ask_frame_of_full cmd hfull
  have hcode : ErrorKind.overflow.code ≠ codeOk := ErrorKind.code_ne_ok _
  refine ⟨u, ?_, hstatus⟩
  rw [performCommand, hargs, HostRun.done_andThen, hframe, HostRun.done_andThen, rspCode_rspWord, if_neg hcode]
  rfl

/-- With room, what is handed over is the frame of the argument, which WIRE holds. -/
theorem Holding.performCommand_of_room (tr : Transport) (cmd : Word) {arg : Option Word}
    (hroom : arg.toList.length < s.nw.val) :
    ∃ u, performCommand tr cmd arg t =
        (if tr.write (frameBytes cmd arg.toList s.cmdCrc) then .done (frameBytes cmd arg.toList s.cmdCrc) u
          else .failed .transport u) ∧
      Holding s arg.toList (frameBytes cmd arg.toList s.cmdCrc) u := by
  obtain ⟨rs, v, hargs, hv⟩ := ht.askAll_argumentRequests arg
  obtain ⟨w, hframe, hw⟩ := hv.ask_frame_of_room cmd hroom
  obtain ⟨qs, u, hall, hbytes, hu⟩ := hw.askAll_unloadRequests
  have hcap := capacity_bounds s
  have hfits := hw.wire_fits
  refine ⟨u, ?_, hu⟩
  rw [performCommand, hargs, HostRun.done_andThen, hframe, HostRun.done_andThen, rspCode_rspWord, if_pos rfl, handOver,
    rspVal_rspWord, natVal_toNat _ (by omega), hall, HostRun.done_andThen, hbytes]

/-! ## The receiving half of performCommandAndRead (R123) -/

/-- `receive` up to `DEC`: WIRE holds the bytes pushed. -/
theorem Holding.receive_eq {n : Nat} (hn : n ≤ s.nw.val) (bytes : List Byte) :
    ∃ u, Holding s ws (bytes.take (n * 3)) u ∧
      receive n bytes t = (ask .dec u).andThen fun r v =>
        if rspCode r ≠ codeOk then .failed (.code (rspCode r)) v
        else if (rspVal r).toNat ≠ n then .failed (.wrongCount (rspVal r)) v
        else (askAll (collectRequests n) v).andThen fun rs x => .done (rs.map rspVal) x := by
  have hfits : (bytes.take (n * 3)).length ≤ 3 * s.nw.val := by
    rw [List.length_take]
    omega
  obtain ⟨rs, u, hpush, hu⟩ := ht.askAll_pushRequests _ hfits
  refine ⟨u, hu, ?_⟩
  rw [receive, hpush, HostRun.done_andThen]

/-- A `DEC` that raises is passed on with its code, and nothing is asked after it (R123, R131). -/
theorem Holding.receive_of_raise {n : Nat} (hn : n ≤ s.nw.val) {bytes : List Byte} {e : ErrorKind} {val : Word}
    (h : ∀ u, u.Inv → u.WireIs (bytes.take (n * 3)) → exec .dec u = raise e val (u.setRawLen 0#16)) :
    ∃ v, receive n bytes t = .failed (.code e.code) v ∧ v.rawLen = 0#16 ∧ v.WireIs (bytes.take (n * 3)) ∧
      v.status = s.status ||| e.statusBit ∧ v.responses.getLast? = some (rspWord e.code val) := by
  obtain ⟨u, hu, hreceive⟩ := ht.receive_eq hn bytes
  obtain ⟨v, hdec, hv⟩ := hu.ask_dec_of_raise (h u hu.inv hu.wire)
  have hcode : e.code ≠ codeOk := e.code_ne_ok
  refine ⟨v, ?_, hv⟩
  rw [hreceive, hdec, HostRun.done_andThen, rspCode_rspWord, if_pos hcode]

/-- Bytes that decode: their words, if they are as many as expected (R123; log 19). -/
theorem Holding.receive_of_words {n : Nat} (hn : n ≤ s.nw.val) {bytes : List Byte} {vs : List Word}
    (hd : decodeBytes (bytes.take (n * 3)) = .ok vs) :
    (vs.length = n → ∃ v, receive n bytes t = .done vs v ∧ Holding s vs (bytes.take (n * 3)) v) ∧
    (vs.length ≠ n → ∃ v, receive n bytes t = .failed (.wrongCount (natVal vs.length)) v ∧
      Holding s vs (bytes.take (n * 3)) v) := by
  obtain ⟨u, hu, hreceive⟩ := ht.receive_eq hn bytes
  obtain ⟨v, hdec, hv⟩ := hu.ask_dec_of_words hd
  have hcap := capacity_bounds s
  have hfits := hv.raw_fits
  have hval : (natVal vs.length).toNat = vs.length := natVal_toNat _ (by omega)
  rw [hreceive, hdec, HostRun.done_andThen, rspCode_rspWord, if_neg (not_not.2 rfl), rspVal_rspWord, hval]
  refine ⟨fun hcount => ?_, fun hcount => ⟨v, if_pos hcount, hv⟩⟩
  subst hcount
  obtain ⟨rs, x, hall, hwords, hx⟩ := hv.askAll_collectRequests
  refine ⟨x, ?_, hx⟩
  rw [if_neg (not_not.2 rfl), hall, HostRun.done_andThen, hwords]

end

/-! ## performCommandAndRead (R123) -/

section
variable {tr : Transport} {op : Operation} {s t : State}

theorem performCommandAndRead_of_failed {e : HostError} (h : performCommand tr op.cmd op.arg s = .failed e t) :
    performCommandAndRead tr op s = .failed e t := by
  rw [performCommandAndRead, h, HostRun.failed_andThen]

theorem performCommandAndRead_of_read_failed {sent : List Byte} (h : performCommand tr op.cmd op.arg s = .done sent t)
    (hread : tr.read (op.expectedWords * 3) = none) : performCommandAndRead tr op s = .failed .transport t := by
  rw [performCommandAndRead, h, HostRun.done_andThen, hread]

theorem performCommandAndRead_of_read {sent bytes : List Byte} (h : performCommand tr op.cmd op.arg s = .done sent t)
    (hread : tr.read (op.expectedWords * 3) = some bytes) :
    performCommandAndRead tr op s = receive op.expectedWords bytes t := by
  rw [performCommandAndRead, h, HostRun.done_andThen, hread]

end

/-- Settles O60: each request of the procedures turns what the block holds into what the next one needs. -/
theorem hostProceduresUseTheBlock : Obligations.HostProceduresUseTheBlock := by
  intro tr op s frame hs hframe
  obtain rfl : frame = frameBytes op.cmd op.arg.toList s.cmdCrc := hframe
  obtain ⟨ws, bs, hold⟩ := hs.exists_holding
  refine ⟨fun hfull => ?_, fun hroom hwrite => ?_, fun hroom hwrite => ?_⟩
  · obtain ⟨t, hperform, hstatus⟩ := hold.performCommand_of_full tr op.cmd hfull
    exact ⟨t, hperform, performCommandAndRead_of_failed hperform, hstatus⟩
  · obtain ⟨t, hperform, ht⟩ := hold.performCommand_of_room tr op.cmd hroom
    rw [hwrite, if_neg Bool.false_ne_true] at hperform
    exact ⟨t, hperform, performCommandAndRead_of_failed hperform, ht.status⟩
  · obtain ⟨t, hperform, ht⟩ := hold.performCommand_of_room tr op.cmd hroom
    rw [hwrite, if_pos rfl] at hperform
    refine ⟨⟨t, hperform, ht.raw, ht.wire, ht.status, ht.cfg, ht.inputs⟩,
      fun hread => ⟨t, performCommandAndRead_of_read_failed hperform hread, ht.wire, ht.status⟩,
      fun hn bytes pushed hread hpushed => ?_⟩
    subst hpushed
    rw [performCommandAndRead_of_read hperform hread]
    refine ⟨fun hd => ?_, fun k hd => ?_, fun vs hd => ?_⟩
    · exact ht.receive_of_raise hn fun u hu hw => hu.exec_dec_framing hw hd
    · exact ht.receive_of_raise hn fun u hu hw => hu.exec_dec_checksum hw hd
    · obtain ⟨hsame, hother⟩ := ht.receive_of_words hn hd
      refine ⟨fun hcount => ?_, fun hcount => ?_, fun hexact => ?_⟩
      · obtain ⟨v, hv, hhold⟩ := hsame hcount
        exact ⟨v, hv, hhold.raw, hhold.wire, hhold.status, hhold.cfg, hhold.inputs⟩
      · obtain ⟨v, hv, hhold⟩ := hother hcount
        exact ⟨v, hv, hhold.raw, hhold.status⟩
      · have hlen := length_of_decodeBytes hd
        rw [List.length_take, hexact] at hlen
        omega

end Sys2Proof.Machine
end
